-- ==== Sys2Proof/Word.lean ====
section
/-! DEFINITION. Bytes, and the small closed types that name a packet's kind, the two entities, the timer
duration and the record formats. -/

namespace Sys2Proof

/-- 8 bits, value 0 to 255 (00_scope R13). -/
abbrev Byte := BitVec 8

/-- A byte sequence, byte 0 first (00_scope R13). -/
abbrev Bytes := List Byte

/-- The two valid packet kinds (30_encoding R92). -/
inductive Kind where
  | ack
  | data
  deriving DecidableEq, Repr

/-- The two entities of a system; `ENTITY_ID` names which one this is (00_scope R10, 30_encoding R104). -/
inductive EntityId where
  | A
  | B
  deriving DecidableEq, Repr

/-- The uninterpreted type `Duration` (10_state R27). No operation computes with it or compares it.
DESIGN CHOICE (log 2): a token of 32 bits. -/
structure Duration where
  token : BitVec 32
  deriving DecidableEq, Repr

/-- The four record formats (30_encoding R90). -/
inductive Format where
  | stim
  | pkt
  | act
  | frm
  deriving DecidableEq, Repr

/-- A record as bytes, with the format it is read in: the codes of different formats overlap (30_encoding R106). -/
structure Record where
  format : Format
  bytes  : Bytes
  deriving DecidableEq, Repr

end Sys2Proof
end

