-- ==== Sys2Proof/Config.lean ====
section
/-! DEFINITION. The parameters of one entity (00_scope R10), fixed at construction. They are plain data held in
`State.cfg`, so a statement about every state is a statement about every legal configuration. The model has no
free value: the spec leaves no result of an operation open. -/

namespace Sys2Proof

/-- `SEQ_MAX`, the largest sequence number (00_scope R10). -/
def seqMax : Nat := 2147483647

/-- The configuration record. It carries the proof that its parameters are legal (00_scope R11: an illegal
parameter is an elaboration error, so no such entity exists). `pendingDepth = none` is "unbounded". -/
structure Config where
  windowSize     : Nat
  timerInterval  : Duration
  entityId       : EntityId
  maxPayload     : Nat
  pendingDepth   : Option Nat
  windowSize_pos : 1 ≤ windowSize
  windowSize_le  : windowSize ≤ 2147483647
  maxPayload_le  : maxPayload ≤ 4294967295
  deriving DecidableEq, Repr

/-- DESIGN CHOICE (log 1): the parameters of `State.reset`. `MAX_PAYLOAD` and `PENDING_DEPTH` have the spec's
defaults (00_scope R10); the spec gives the other three no default. -/
def Config.default : Config where
  windowSize := 4
  timerInterval := ⟨0⟩
  entityId := .A
  maxPayload := 4294967295
  pendingDepth := none
  windowSize_pos := by decide
  windowSize_le := by decide
  maxPayload_le := by decide

end Sys2Proof
end

