-- ==== Sys2Proof/Machine/Operands.lean ====
section
/-! DEFINITION. The operand primitives of 00_scope R14 and the arithmetic of the checksum (40_framer R131 to R133,
R141). Every value is a mathematical integer and nothing wraps (R14). -/

namespace Sys2Proof.Machine

/-- `B[i]` as an integer. Every use below is guarded by the length of `B`. -/
def byteAt (B : Bytes) (i : Nat) : Nat := (B.getD i 0).toNat

/-- `be16(v)` (R14). -/
def be16 (v : Nat) : Bytes := [BitVec.ofNat 8 (v / 256), BitVec.ofNat 8 v]

/-- `be32(v)` (R14). -/
def be32 (v : Nat) : Bytes :=
  [BitVec.ofNat 8 (v / 16777216), BitVec.ofNat 8 (v / 65536), BitVec.ofNat 8 (v / 256), BitVec.ofNat 8 v]

/-- `u16(B, i)` (R14). -/
def u16 (B : Bytes) (i : Nat) : Nat := 256 * byteAt B i + byteAt B (i + 1)

/-- `u32(B, i)` (R14). -/
def u32 (B : Bytes) (i : Nat) : Nat :=
  16777216 * byteAt B i + 65536 * byteAt B (i + 1) + 256 * byteAt B (i + 2) + byteAt B (i + 3)

/-- `s32(v)`, two's complement (R14; the representation is decision D5, log 15). -/
def s32 (v : Nat) : Int := if v < 2147483648 then (v : Int) else (v : Int) - 4294967296

/-- `t32(n)`, the inverse of `s32` (R14). -/
def t32 (n : Int) : Nat := if 0 ≤ n then n.toNat else (n + 4294967296).toNat

/-- The range of the signed `number` field (30_encoding R93). -/
def inNumberRange (n : Int) : Bool := decide (-2147483648 ≤ n ∧ n < 2147483648)

/-- The tag of a kind on the wire: 0 for ACK, 128 for DATA (30_encoding R92). -/
def kindTag : Kind → Nat
  | .ack => 0
  | .data => 128

/-- The kind a tag names; all 16 bits are compared (30_encoding R92, R100). -/
def kindOfTag (tag : Nat) : Option Kind :=
  if tag = 0 then some .ack else if tag = 128 then some .data else none

/-- The tag of a frame, when its first two bytes can be read (43_entity R224). -/
def frameTag (B : Bytes) : Option Nat := if B.length < 2 then none else some (u16 B 0)

/-- Whether a frame's kind is ACK, the value of `is_ack` (30_encoding R105). -/
def isAckFrame (B : Bytes) : Bool := frameTag B == some 0

/-- `words(B)` (R131): 16-bit big-endian words, an odd last byte padded with one zero byte below it. -/
def words : Bytes → List Nat
  | [] => []
  | [x] => [256 * x.toNat]
  | x :: y :: rest => (256 * x.toNat + y.toNat) :: words rest

/-- The passes of `fold16`, at most `fuel` of them. -/
def foldPasses : Nat → Nat → Nat
  | 0, S => S
  | fuel + 1, S => if S ≤ 65535 then S else foldPasses fuel (S % 65536 + S / 65536)

/-- `fold16(S)` (R132), the end-around carry fold. Each pass makes `S` smaller while it is above `0xFFFF`
(R132 (a)), so `S` passes are enough. -/
def fold16 (S : Nat) : Nat := foldPasses S S

/-- `ocsum(B)` (R133). -/
def ocsum (B : Bytes) : Nat := fold16 (words B).sum

/-- One addition with the carry out of bit 15 added back in (R132 (e)), for 16-bit operands. -/
def endAroundAdd (acc w : Nat) : Nat := if acc + w ≤ 65535 then acc + w else acc + w - 65536 + 1

/-- The one's complement of a 16-bit value (R141). -/
def onesComplement (s : Nat) : Nat := 65535 - s

end Sys2Proof.Machine
end

