-- ==== Sys2Proof/Machine/Framer.lean ====
section
/-! DEFINITION. The three functions of the Framer/Checksum block, all pure (40_framer R130). -/

namespace Sys2Proof.Machine

/-- A decoded packet (30_encoding R98). -/
structure Packet where
  kind          : Nat
  number        : Int
  checksum      : Nat
  payloadLength : Nat
  payload       : Bytes
  deriving DecidableEq, Repr

/-- The result of `decode` (40_framer R135): a packet, or the degenerate result with the tag if it could be read. -/
inductive DecodeResult where
  | packet (p : Packet)
  | fail (tag : Option Nat)
  deriving DecidableEq, Repr

/-- The layout of a frame (30_encoding R91, R98), each field in place, the body after the header. -/
def layout (tag number checksum payloadLength : Nat) (body : Bytes) : Bytes :=
  be16 tag ++ be32 number ++ be16 checksum ++ be32 payloadLength ++ body

/-- `B0` of R134: the frame with its checksum field set to 0. -/
def unsummedFrame (kind : Kind) (number : Int) (payload : Bytes) : Bytes :=
  layout (kindTag kind) (t32 number) 0 payload.length payload

/-- `encode(kind, number, payload)` (R134). -/
def encodeFrame (kind : Kind) (number : Int) (payload : Bytes) : Bytes :=
  layout (kindTag kind) (t32 number) (onesComplement (ocsum (unsummedFrame kind number payload)))
    payload.length payload

/-- `decode(B)` (R135). Bytes past the declared payload are ignored; `12 + plen` does not wrap. -/
def decodeFrame (B : Bytes) : DecodeResult :=
  if B.length < 2 then .fail none
  else if B.length < 12 then .fail (some (u16 B 0))
  else if B.length < 12 + u32 B 8 then .fail (some (u16 B 0))
  else .packet
    { kind := u16 B 0
      number := s32 (u32 B 2)
      checksum := u16 B 6
      payloadLength := u32 B 8
      payload := (B.drop 12).take (u32 B 8) }

/-- `verify(B)` (R136): true means not corrupt, equality with `0xFFFF` and nothing else (R143). -/
def verify (B : Bytes) : Bool := ocsum B == 65535

/-- `corrupt` of an RX step (43_entity R222): `verify` is false, or `decode` failed whatever `verify` says (R142). -/
def corrupt (B : Bytes) : Bool :=
  match decodeFrame B with
  | .packet _ => !verify B
  | .fail _ => true

end Sys2Proof.Machine
end

