-- ==== Sys2Proof/Syntax.lean ====
section
/-! DEFINITION. The operations of the block: one constructor per row of spec/opcode_table.json (30_encoding R106). -/

namespace Sys2Proof

/-- The 13 operations. A stimulus carries the bytes its record carries; a packet carries its header fields and
every byte that followed the header (`body`), which may be shorter or longer than `payloadLength` says; an action
carries the fields of 30_encoding R103 that belong to it; a framer call carries its function's operands. -/
inductive Instr where
  /-- IDLE: nothing happened (R102). -/
  | idle
  /-- SUBMIT (R167). -/
  | submit (payload : Bytes)
  /-- RX (R222). -/
  | rx (frame : Bytes)
  /-- TIMEOUT (R177). -/
  | timeout
  /-- PKT.ACK: a frame whose kind is `0x0000`, inside an RX (R169). -/
  | pktAck (number : BitVec 32) (checksum : BitVec 16) (payloadLength : BitVec 32) (body : Bytes)
  /-- PKT.DATA: a frame whose kind is `0x0080`, inside an RX (R201). -/
  | pktData (number : BitVec 32) (checksum : BitVec 16) (payloadLength : BitVec 32) (body : Bytes)
  /-- TRANSMIT (R241). -/
  | transmit (entity : EntityId) (isAck : Bool) (frame : Bytes)
  /-- DELIVER (R242). -/
  | deliver (entity : EntityId) (payload : Bytes)
  /-- START_TIMER (R243). -/
  | startTimer (entity : EntityId) (duration : Duration)
  /-- STOP_TIMER (R244). -/
  | stopTimer (entity : EntityId)
  /-- ENCODE (R134). -/
  | frmEncode (kind : Kind) (number : Int) (payload : Bytes)
  /-- DECODE (R135). -/
  | frmDecode (bytes : Bytes)
  /-- VERIFY (R136). -/
  | frmVerify (bytes : Bytes)
  deriving DecidableEq, Repr

end Sys2Proof
end

