-- ==== Sys2Proof/Decode.lean ====
section
/-! DEFINITION. The decoder of the four record formats (30_encoding R90), total on any bytes and rejecting by name, and
after it the encoder. A record's bits are numbered from the least significant bit of its first byte, so `op` or `fn` is
bits 1:0 of byte 0, and the next field starts at the next bit ("32 bits after op"); DESIGN CHOICE, logs 7, 8 and 9.
A PKT record is the frame itself, big-endian (R91). -/

namespace Sys2Proof

open Machine (u16 u32 s32 t32 kindTag kindOfTag isAckFrame layout)

/-- Why a record is no operation. -/
inductive DecodeError where
  /-- the bytes present are not those the format and `len` call for -/
  | lengthMismatch
  /-- bits past the last field are not 0 -/
  | paddingNotZero
  /-- an action's field that R103 says is 0 is not 0 -/
  | actFieldNotZero
  /-- TRANSMIT's `is_ack` does not match its frame (R105) -/
  | isAckMismatch
  /-- `fn = 11`: no function, never driven (R112) -/
  | unusedSelect
  /-- ENCODE of a kind that is neither ACK nor DATA (40_framer R144) -/
  | unknownKind
  deriving DecidableEq, Repr

/-- A byte sequence as a number, byte 0 least significant. -/
def leNat : Bytes → Nat
  | [] => 0
  | b :: rest => b.toNat + 256 * leNat rest

/-- The lowest `k` bytes of a number, least significant first. -/
def leBytes : Nat → Nat → Bytes
  | 0, _ => []
  | k + 1, v => BitVec.ofNat 8 v :: leBytes k (v / 256)

/-- `n` bits of `v` from bit `lo` up. -/
def bitsOf (v lo n : Nat) : Nat := v / 2 ^ lo % 2 ^ n

/-- The bytes after a header of `hbits` bits, in a record whose header and padding take `hbytes` bytes. -/
def unpackBytes (hbits hbytes len : Nat) (bytes : Bytes) : Except DecodeError Bytes :=
  if bytes.length ≠ hbytes + len then .error .lengthMismatch
  else if leNat bytes / 2 ^ hbits < 256 ^ len then .ok (leBytes len (leNat bytes / 2 ^ hbits))
  else .error .paddingNotZero

/-- The inverse of `unpackBytes`: a header of `hbits` bits, then the bytes, then zero bits to a whole byte. -/
def packBytes (hbits hbytes header : Nat) (b : Bytes) : Bytes :=
  leBytes (hbytes + b.length) (header + 2 ^ hbits * leNat b)

/-- The bit of an entity: 0 for A, 1 for B (R104). -/
def entityBit : EntityId → Nat
  | .A => 0
  | .B => 1

/-- The entity of a bit (R104). -/
def entityOfBit (b : Nat) : EntityId := if b = 0 then .A else .B

/-- STIM (R102): `op` 1:0, `len` 33:2, then the bytes. `len` is ignored for IDLE and TIMEOUT. -/
def decodeStim (bytes : Bytes) : Except DecodeError Instr :=
  let v := leNat bytes
  let len := bitsOf v 2 32
  match bitsOf v 0 2 with
  | 0 => (unpackBytes 34 5 0 bytes).map fun _ => .idle
  | 1 => (unpackBytes 34 5 len bytes).map .submit
  | 2 => (unpackBytes 34 5 len bytes).map .rx
  | _ => (unpackBytes 34 5 0 bytes).map fun _ => .timeout

/-- PKT (R91, R92): the kind tag selects the row. A frame of another kind, or with an incomplete header, has no row
(R106: PKT.UNKNOWN is the decoder's default) and stays the RX it arrived in, for the controller to classify. -/
def decodePkt (bytes : Bytes) : Instr :=
  if bytes.length < 12 then .rx bytes
  else match kindOfTag (u16 bytes 0) with
    | some .ack =>
      .pktAck (BitVec.ofNat 32 (u32 bytes 2)) (BitVec.ofNat 16 (u16 bytes 6)) (BitVec.ofNat 32 (u32 bytes 8))
        (bytes.drop 12)
    | some .data =>
      .pktData (BitVec.ofNat 32 (u32 bytes 2)) (BitVec.ofNat 16 (u16 bytes 6)) (BitVec.ofNat 32 (u32 bytes 8))
        (bytes.drop 12)
    | none => .rx bytes

/-- ACT (R103): `op` 1:0, `entity_id` 2, `is_ack` 3, `duration` 35:4, `len` 67:36, then the bytes. -/
def decodeAct (bytes : Bytes) : Except DecodeError Instr :=
  let v := leNat bytes
  let entity := entityOfBit (bitsOf v 2 1)
  let isAck := bitsOf v 3 1 == 1
  let duration := bitsOf v 4 32
  let len := bitsOf v 36 32
  match bitsOf v 0 2 with
  | 0 =>
    if duration ≠ 0 then .error .actFieldNotZero
    else match unpackBytes 68 9 len bytes with
      | .error e => .error e
      | .ok frame => if isAck = isAckFrame frame then .ok (.transmit entity isAck frame) else .error .isAckMismatch
  | 1 =>
    if duration ≠ 0 ∨ isAck = true then .error .actFieldNotZero
    else (unpackBytes 68 9 len bytes).map (.deliver entity)
  | 2 =>
    if isAck = true ∨ len ≠ 0 then .error .actFieldNotZero
    else (unpackBytes 68 9 0 bytes).map fun _ => .startTimer entity ⟨BitVec.ofNat 32 duration⟩
  | _ =>
    if duration ≠ 0 ∨ isAck = true ∨ len ≠ 0 then .error .actFieldNotZero
    else (unpackBytes 68 9 0 bytes).map fun _ => .stopTimer entity

/-- FRM (R112): `fn` 1:0, then the function's operands: for ENCODE the tag 17:2, the number 49:18 and `len` 81:50,
for DECODE and VERIFY `len` 33:2, and then the bytes. -/
def decodeFrm (bytes : Bytes) : Except DecodeError Instr :=
  let v := leNat bytes
  match bitsOf v 0 2 with
  | 0 =>
    match kindOfTag (bitsOf v 2 16) with
    | none => .error .unknownKind
    | some kind => (unpackBytes 82 11 (bitsOf v 50 32) bytes).map (.frmEncode kind (s32 (bitsOf v 18 32)))
  | 1 => (unpackBytes 34 5 (bitsOf v 2 32) bytes).map .frmDecode
  | 2 => (unpackBytes 34 5 (bitsOf v 2 32) bytes).map .frmVerify
  | _ => .error .unusedSelect

/-- The decoder: the operation of a record, or why it is none. -/
def decode (r : Record) : Except DecodeError Instr :=
  match r.format with
  | .stim => decodeStim r.bytes
  | .pkt => .ok (decodePkt r.bytes)
  | .act => decodeAct r.bytes
  | .frm => decodeFrm r.bytes

/-- The bytes of a frame with the given header fields and body (R91). -/
def packetBytes (kind : Kind) (number : BitVec 32) (checksum : BitVec 16) (payloadLength : BitVec 32) (body : Bytes) :
    Bytes :=
  layout (kindTag kind) number.toNat checksum.toNat payloadLength.toNat body

/-- The encoder: the record of a well-formed operation. -/
def encode : Instr → Record
  | .idle => ⟨.stim, packBytes 34 5 0 []⟩
  | .submit p => ⟨.stim, packBytes 34 5 (1 + 4 * p.length) p⟩
  | .rx b => ⟨.stim, packBytes 34 5 (2 + 4 * b.length) b⟩
  | .timeout => ⟨.stim, packBytes 34 5 3 []⟩
  | .pktAck n c l body => ⟨.pkt, packetBytes .ack n c l body⟩
  | .pktData n c l body => ⟨.pkt, packetBytes .data n c l body⟩
  | .transmit e a f =>
    ⟨.act, packBytes 68 9 (0 + 4 * entityBit e + 8 * a.toNat + 2 ^ 36 * f.length) f⟩
  | .deliver e p => ⟨.act, packBytes 68 9 (1 + 4 * entityBit e + 2 ^ 36 * p.length) p⟩
  | .startTimer e d => ⟨.act, packBytes 68 9 (2 + 4 * entityBit e + 16 * d.token.toNat) []⟩
  | .stopTimer e => ⟨.act, packBytes 68 9 (3 + 4 * entityBit e) []⟩
  | .frmEncode k n p =>
    ⟨.frm, packBytes 82 11 (0 + 4 * kindTag k + 2 ^ 18 * t32 n + 2 ^ 50 * p.length) p⟩
  | .frmDecode b => ⟨.frm, packBytes 34 5 (1 + 4 * b.length) b⟩
  | .frmVerify b => ⟨.frm, packBytes 34 5 (2 + 4 * b.length) b⟩

/-- The bytes of a number, most significant first. -/
def beBytes (k v : Nat) : Bytes := (leBytes k v).reverse

/-- The record that a word of the opcode table stands for (log 10). A 96-bit word is a PKT header, bit 95 being bit 7 of
byte 0 (R91), followed by zero payload bytes, as many as it declares and at most 64. Any other word is a STIM record,
the only 2-bit format the environment presents (R102), followed by zeros: `len` and the bytes it calls for. -/
def recordOfTableWord (nbits w : Nat) : Record :=
  if nbits = 96 then ⟨.pkt, beBytes 12 w ++ List.replicate (min (bitsOf w 0 32) 64) 0⟩
  else
    let op := bitsOf w 0 2
    ⟨.stim, leBytes (5 + if op = 1 ∨ op = 2 then bitsOf w 2 32 else 0) w⟩

/-- What the decoder reads from a word of the opcode table. -/
def decodeTableWord (nbits w : Nat) : Option Instr :=
  match decode (recordOfTableWord nbits w) with
  | .ok i => some i
  | .error _ => none

end Sys2Proof
end

