-- ==== Sys2Proof/Machine/Memory.lean ====
section
/-! DEFINITION. The unacked buffer `UB` as a finite map from sequence numbers to frames (20_memory R61; a model may use a
plain finite map, R62). Canonical form: keys strictly rising. An unlisted key is absent and has no value (R66). -/

namespace Sys2Proof.Machine

/-- `UB`: key and frame pairs. -/
abbrev Memory := List (Nat × Bytes)

/-- The keys, in list order. -/
def Memory.keys (m : Memory) : List Nat := m.map Prod.fst

/-- The canonical form: keys strictly rising. -/
abbrev Memory.wf (m : Memory) : Prop := m.keys.Pairwise (· < ·)

/-- `UB[n]` (R64); `none` when the key is absent. -/
def Memory.read : Memory → Nat → Option Bytes
  | [], _ => none
  | (k, f) :: rest, n => if k = n then some f else Memory.read rest n

/-- `UB[n] <- pkt` (R63), the whole frame at once. -/
def Memory.write : Memory → Nat → Bytes → Memory
  | [], n, f => [(n, f)]
  | (k, g) :: rest, n, f =>
    if n < k then (n, f) :: (k, g) :: rest
    else if n = k then (n, f) :: rest
    else (k, g) :: Memory.write rest n f

/-- Eviction (R65): every key below `base` is removed. -/
def Memory.evictBelow (m : Memory) (base : Nat) : Memory := m.filter fun e => decide (base ≤ e.1)

/-- The slot of key `n` in a store of `windowSize` slots (R62); no operation uses it. -/
def slotOf (windowSize n : Nat) : Nat := n % windowSize

end Sys2Proof.Machine
end

