-- ==== Sys2Proof/Machine/State.lean ====
section
/-! DEFINITION. The state of one entity (10_state R20) as plain data, its outputs, the waiting stimuli, the reasons a step
can stop, and the state after reset (10_state R37). -/

namespace Sys2Proof.Machine

/-- An action out of the entity (00_scope R16, 30_encoding R103). -/
inductive Action where
  | transmit (entity : EntityId) (isAck : Bool) (frame : Bytes)
  | deliver (entity : EntityId) (payload : Bytes)
  | startTimer (entity : EntityId) (duration : Duration)
  | stopTimer (entity : EntityId)
  deriving DecidableEq, Repr

/-- A stimulus into the entity (00_scope R16). -/
inductive Stimulus where
  | submit (payload : Bytes)
  | rx (frame : Bytes)
  | timeout
  deriving DecidableEq, Repr

/-- `rx_class`, the branch an RX step took (60_exceptions R262). -/
inductive RxClass where
  | ackAccept
  | ackStale
  | ackAhead
  | ackCorrupt
  | dataAccept
  | dataUnexpected
  | dataCorrupt
  | dropUnknownKind
  | dropUnreadable
  deriving DecidableEq, Repr

/-- The answer of a framer call (40_framer R134 to R136). -/
inductive FramerResult where
  | frame (bytes : Bytes)
  | decoded (result : DecodeResult)
  | verdict (notCorrupt : Bool)
  deriving DecidableEq, Repr

/-- What a step puts out: its ordered action list (43_entity R240), its class if it is an RX step (10_state R35), and
the answer of a framer call. The model's own field (log 6). -/
structure Output where
  actions : List Action
  rxClass : Option RxClass
  framer  : Option FramerResult
  deriving DecidableEq, Repr

/-- Nothing put out. -/
def Output.empty : Output := ⟨[], none, none⟩

/-- One element of the trace (00_scope R16). -/
structure TraceEntry where
  stimulus : Stimulus
  actions  : List Action
  deriving DecidableEq, Repr

/-- Where a stimulus waits: on the stimulus port as a STIM record, or at the channel as a frame to be received. -/
inductive Port where
  | stimulus
  | channel
  deriving DecidableEq, Repr

/-- A stimulus the environment holds and presents (60_exceptions R275). -/
structure Waiting where
  port  : Port
  bytes : Bytes
  deriving DecidableEq, Repr

/-- The state. The first field holds the constants of R26, R27, R33 and the parameters of 00_scope R10; the next seven
are the registers and stores of R21 to R30; the last three are the model's own (logs 4 and 6). -/
structure State where
  cfg            : Config
  /-- `window_base` (R21) -/
  windowBase     : Nat
  /-- `next_seq_num` (R22) -/
  nextSeqNum     : Nat
  /-- `unacked_buffer` (R24) -/
  unackedBuffer  : Memory
  /-- `pending_queue` (R25), oldest payload first -/
  pendingQueue   : List Bytes
  /-- `timer_running` (R28) -/
  timerRunning   : Bool
  /-- `expected_seq_num` (R29) -/
  expectedSeqNum : Nat
  /-- `last_ack_num` (R30) -/
  lastAckNum     : Int
  /-- the outputs of the last step -/
  out            : Output
  /-- the trace of the run, oldest step first -/
  trace          : List TraceEntry
  /-- the stimuli the environment holds, in the order it presents them -/
  inbox          : List Waiting
  deriving DecidableEq, Repr

/-- Why the machine could stop with a fault. -/
inductive Fault where
  /-- The retransmission loop read a key that `UB` does not hold. 20_memory R66: it "cannot happen"; no state that meets
  the window invariant raises it. Safe (log 13). -/
  | absentKey (n : Nat)
  deriving DecidableEq, Repr

/-- Why the machine could refuse. No operation and no step does (60_exceptions R260): a stimulus that is not admitted goes on
waiting (log 5), and so does a record that is no operation (log 18). -/
inductive Refusal where
  /-- An operation without a meaning yet; raised by no arm of the finished model. Safe. -/
  | notModelled (mnemonic : String)
  deriving DecidableEq, Repr

/-- The state after reset of an entity with a given configuration (R37): no action was emitted (R312), nothing waits. -/
def State.resetWith (c : Config) : State where
  cfg := c
  windowBase := 0
  nextSeqNum := 0
  unackedBuffer := []
  pendingQueue := []
  timerRunning := false
  expectedSeqNum := 0
  lastAckNum := -1
  out := Output.empty
  trace := []
  inbox := []

/-- The state after reset, with the parameters of log 1. -/
def State.reset : State := State.resetWith Config.default

end Sys2Proof.Machine
end

