-- ==== Sys2Proof/Machine/Flags.lean ====
section
/-! DEFINITION. The predicates of 10_state R34, the admission of stimuli (43_entity R228, R246), the numbers of the RX
classes (60_exceptions R262), and the read-only status view (10_state R35). -/

namespace Sys2Proof.Machine

/-- `window_empty` (41_sender R162). -/
def State.windowEmpty (s : State) : Bool := s.windowBase == s.nextSeqNum

/-- `has_room()` (41_sender R163). -/
def State.hasRoom (s : State) : Bool :=
  decide (s.nextSeqNum < s.windowBase + s.cfg.windowSize) && decide (s.nextSeqNum ≤ seqMax)

/-- `window_full` (R34). -/
def State.windowFull (s : State) : Bool := !s.hasRoom

/-- `pending_nonempty` (R34). -/
def State.pendingNonempty (s : State) : Bool := decide (s.pendingQueue.length > 0)

/-- `seq_exhausted` (R34). -/
def State.seqExhausted (s : State) : Bool := s.nextSeqNum == 2147483648

/-- `PQ.count() < PENDING_DEPTH` (43_entity R228). -/
def State.pendingBelowDepth (s : State) : Bool :=
  match s.cfg.pendingDepth with
  | none => true
  | some depth => decide (s.pendingQueue.length < depth)

/-- Admission of SUBMIT (43_entity R228). -/
def State.submitAdmitted (s : State) (payload : Bytes) : Bool :=
  decide (payload.length ≤ s.cfg.maxPayload) && (s.hasRoom || s.pendingBelowDepth)

/-- Admission of RX (43_entity R246). -/
def State.frameAdmitted (s : State) (B : Bytes) : Bool := decide (B.length ≤ 12 + s.cfg.maxPayload)

/-- The code of a class (60_exceptions R262). -/
def rxClassCode : RxClass → Nat
  | .ackAccept => 0
  | .ackStale => 1
  | .ackAhead => 2
  | .ackCorrupt => 3
  | .dataAccept => 4
  | .dataUnexpected => 5
  | .dataCorrupt => 6
  | .dropUnknownKind => 7
  | .dropUnreadable => 8

/-- The status view (10_state R35): the registers, `PQ.count()`, the predicates of R34 and the class. DESIGN CHOICE (log 19):
R34's table also lists `corrupt`, which has a value only inside an RX step (43_entity R222); the view is read between steps,
where the spec gives it none, so it has no field here. -/
structure StatusView where
  windowBase      : Nat
  nextSeqNum      : Nat
  expectedSeqNum  : Nat
  lastAckNum      : Int
  timerRunning    : Bool
  pendingCount    : Nat
  windowEmpty     : Bool
  hasRoom         : Bool
  windowFull      : Bool
  pendingNonempty : Bool
  seqExhausted    : Bool
  rxClass         : Option Nat
  deriving DecidableEq, Repr

/-- Reading the status port: it has no side effect (R35). The class is the last step's output. -/
def State.statusView (s : State) : StatusView where
  windowBase := s.windowBase
  nextSeqNum := s.nextSeqNum
  expectedSeqNum := s.expectedSeqNum
  lastAckNum := s.lastAckNum
  timerRunning := s.timerRunning
  pendingCount := s.pendingQueue.length
  windowEmpty := s.windowEmpty
  hasRoom := s.hasRoom
  windowFull := s.windowFull
  pendingNonempty := s.pendingNonempty
  seqExhausted := s.seqExhausted
  rxClass := s.out.rxClass.map rxClassCode

end Sys2Proof.Machine
end

