-- ==== Sys2Proof/Machine/Ops.lean ====
section
/-! DEFINITION. The shared operations: entry and end of a step, `emit` and `classify` (00_scope R14), the sender's
micro-operations (41_sender R164 to R166, R174, R177), and what the environment does with the waiting stimuli.
There is no exception to take (60_exceptions R260): `classify` plays the part of `raise` and changes no control flow. -/

namespace Sys2Proof.Machine

/-- Entry of a step (60_exceptions R279): nothing is saved; the outputs of the step before are no longer driven. -/
def State.beginStep (s : State) : State := { s with out := Output.empty }

/-- End of a step (60_exceptions R280): the stimulus and its actions join the trace (00_scope R16). -/
def State.endStep (s : State) (st : Stimulus) : State := { s with trace := s.trace ++ [⟨st, s.out.actions⟩] }

/-- `emit A` (00_scope R14). -/
def State.emit (s : State) (a : Action) : State :=
  { s with out := { s.out with actions := s.out.actions ++ [a] } }

/-- `classify c` (00_scope R14). -/
def State.classify (s : State) (c : RxClass) : State := { s with out := { s.out with rxClass := some c } }

/-- Hand a framer call's answer to its caller; no register changes (40_framer R130). -/
def State.answer (s : State) (r : FramerResult) : State := { s with out := { s.out with framer := some r } }

/-- `emit STOP_TIMER(ENTITY_ID)` if a timer is outstanding, the first line of R164 and of R165. -/
def State.stopIfRunning (s : State) : State :=
  if s.timerRunning then s.emit (.stopTimer s.cfg.entityId) else s

/-- `timer_start()` (R164). -/
def State.timerStart (s : State) : State :=
  let s := s.stopIfRunning
  let s := s.emit (.startTimer s.cfg.entityId s.cfg.timerInterval)
  { s with timerRunning := true }

/-- `timer_stop()` (R165). -/
def State.timerStop (s : State) : State := { s.stopIfRunning with timerRunning := false }

/-- The pseudo-operation RESTART, which stands for `STOP; START` (30_encoding R108). -/
def State.restart (s : State) : State := s.timerStop.timerStart

/-- `PQ.push_back(p)` (20_memory R67). -/
def State.pushBack (s : State) (p : Bytes) : State := { s with pendingQueue := s.pendingQueue ++ [p] }

/-- `send_new(p)` (R166): store, transmit, arm the timer if this is the only unacknowledged packet, increment. -/
def State.sendNew (s : State) (p : Bytes) : State :=
  let pkt := encodeFrame .data (s.nextSeqNum : Int) p
  let s := { s with unackedBuffer := s.unackedBuffer.write s.nextSeqNum pkt }
  let s := s.emit (.transmit s.cfg.entityId false pkt)
  let s := if s.windowEmpty then s.timerStart else s
  { s with nextSeqNum := s.nextSeqNum + 1 }

/-- The drain loop (R174) over the queue `queue` that `s` holds: each pass is `send_new(PQ.pop_front())`. It ends when
the queue is empty or the window is full (R175). -/
def State.drain : List Bytes → State → State
  | [], s => s
  | p :: rest, s => if s.hasRoom then State.drain rest ({ s with pendingQueue := rest }.sendNew p) else s

/-- The retransmission loop (R177): the `count` frames from key `n` up, each sent as it is stored (R179). A key that `UB`
does not hold cannot be read (20_memory R66): a named fault. -/
def State.retransmit : Nat → Nat → State → Host.Outcome State Fault Refusal
  | 0, _, s => .next s
  | count + 1, n, s =>
    match s.unackedBuffer.read n with
    | none => .fault (.absentKey n)
    | some pkt => State.retransmit count (n + 1) (s.emit (.transmit s.cfg.entityId false pkt))

/-- The environment presents one more stimulus, behind those that wait. -/
def State.present (s : State) (w : Waiting) : State := { s with inbox := s.inbox ++ [w] }

/-- The rank of a waiting stimulus in the reference mux (60_exceptions R277): RX, then TIMEOUT, then SUBMIT. R277 ranks these
three only; where anything else stands is the model's (DESIGN CHOICE, log 17): a record is ranked by its two op bits alone, so a
malformed one, which is no stimulus (log 18), ranks as the operation that its op names, and op 00 or no byte at all ranks last. -/
def Waiting.rank (w : Waiting) : Nat :=
  match w.port with
  | .channel => 0
  | .stimulus =>
    match bitsOf (leNat w.bytes) 0 2 with
    | 2 => 0
    | 3 => 1
    | 1 => 2
    | _ => 3

/-- The waiting stimuli in the order of the reference mux (60_exceptions R277), one of the orders a model allows. -/
def State.arbitrateReference (s : State) : State :=
  { s with inbox := s.inbox.filter (·.rank == 0) ++ s.inbox.filter (·.rank == 1) ++ s.inbox.filter (·.rank == 2)
      ++ s.inbox.filter (fun w => decide (3 ≤ w.rank)) }

end Sys2Proof.Machine
end

