-- ==== Sys2Proof/Machine/Receiver.lean ====
section
/-! DEFINITION. The receiver sub-state-machine (42_receiver): `on_data_received` and PKT.DATA. -/

namespace Sys2Proof.Machine

/-- Transmit `last_ack_sent`, the frame `encode(ACK, last_ack_num, ε)` (10_state R30, 42_receiver R203). -/
def State.sendLastAck (s : State) : State :=
  s.emit (.transmit s.cfg.entityId true (encodeFrame .ack s.lastAckNum []))

/-- The accept branch (R202): deliver, then store and send the new ACK, then increment. -/
def State.acceptData (s : State) (payload : Bytes) : State :=
  let s := s.emit (.deliver s.cfg.entityId payload)
  let s := { s with lastAckNum := (s.expectedSeqNum : Int) }
  let s := s.sendLastAck
  { s with expectedSeqNum := s.expectedSeqNum + 1 }

/-- `on_data_received` (R201). `none` is `corrupt`, for which the packet is not an operand; `some` carries the number and
the payload of a frame that is not corrupt. -/
def State.onDataReceived (s : State) (pkt : Option (Int × Bytes)) : State :=
  match pkt with
  | none => (s.classify .dataCorrupt).sendLastAck
  | some (number, payload) =>
    if number = (s.expectedSeqNum : Int) then (s.classify .dataAccept).acceptData payload
    else (s.classify .dataUnexpected).sendLastAck

/-- PKT.DATA: the RX step of a frame whose kind is DATA and whose header is complete (R201, 43_entity R222, R223). Bytes
past the declared payload are not delivered (40_framer R135). -/
def execPktData (number : BitVec 32) (checksum : BitVec 16) (payloadLength : BitVec 32) (body : Bytes) (s : State) :
    Host.Outcome State Fault Refusal :=
  let B := packetBytes .data number checksum payloadLength body
  if s.frameAdmitted B then
    let pkt :=
      if verify B = true ∧ payloadLength.toNat ≤ body.length then some (number.toInt, body.take payloadLength.toNat)
      else none
    .next ((s.beginStep.onDataReceived pkt).endStep (.rx B))
  else .next s

end Sys2Proof.Machine
end

