-- ==== Sys2Proof/Machine/Sender.lean ====
section
/-! DEFINITION. The sender sub-state-machine (41_sender): SUBMIT, `on_ack_received` and PKT.ACK, TIMEOUT. -/

namespace Sys2Proof.Machine

/-- SUBMIT (R167). One that is not admitted is not taken: no step, no state change (43_entity R228; log 5). -/
def execSubmit (payload : Bytes) (s : State) : Host.Outcome State Fault Refusal :=
  if s.submitAdmitted payload then
    let s := s.beginStep
    let s := if s.hasRoom then s.sendNew payload else s.pushBack payload
    .next (s.endStep (.submit payload))
  else .next s

/-- An accepted ACK (R173, R174): slide the window, evict, stop the timer, restart it if packets remain, drain. -/
def State.acceptAck (s : State) (ackNum : Nat) : State :=
  let s := { s with windowBase := ackNum + 1 }
  let s := { s with unackedBuffer := s.unackedBuffer.evictBelow s.windowBase }
  let s := s.timerStop
  let s := if s.windowEmpty then s else s.timerStart
  State.drain s.pendingQueue s

/-- `on_ack_received` (R169). `none` is `corrupt`, for which the number is not an operand; `some` carries the number of a
frame that is not corrupt. -/
def State.onAckReceived (s : State) (ack : Option Int) : State :=
  match ack with
  | none => s.classify .ackCorrupt
  | some ackNum =>
    if ackNum < (s.windowBase : Int) then s.classify .ackStale
    else if ackNum ≥ (s.nextSeqNum : Int) then s.classify .ackAhead
    else (s.classify .ackAccept).acceptAck ackNum.toNat

/-- PKT.ACK: the RX step of a frame whose kind is ACK and whose header is complete (R169, 43_entity R222, R223). Its
payload is no operand of the sender, but a payload shorter than declared makes the frame corrupt (43_entity R224). -/
def execPktAck (number : BitVec 32) (checksum : BitVec 16) (payloadLength : BitVec 32) (body : Bytes) (s : State) :
    Host.Outcome State Fault Refusal :=
  let B := packetBytes .ack number checksum payloadLength body
  if s.frameAdmitted B then
    let ack := if verify B = true ∧ payloadLength.toNat ≤ body.length then some number.toInt else none
    .next ((s.beginStep.onAckReceived ack).endStep (.rx B))
  else .next s

/-- TIMEOUT (R177), always admitted (43_entity R229), with an empty window too (R178). -/
def execTimeout (s : State) : Host.Outcome State Fault Refusal :=
  let s := s.beginStep
  let s := { s with timerRunning := false }
  let s := s.timerStart
  match State.retransmit (s.nextSeqNum - s.windowBase) s.windowBase s with
  | .next s => .next (s.endStep .timeout)
  | .fault r => .fault r
  | .refused r => .refused r

end Sys2Proof.Machine
end

