-- ==== Sys2Proof/Machine/Entity.lean ====
section
/-! DEFINITION. The entity controller (43_entity): IDLE, RX, and the four actions it hands to the collaborators. -/

namespace Sys2Proof.Machine

/-- IDLE: no step (30_encoding R102, 43_entity R221). -/
def execIdle (s : State) : Host.Outcome State Fault Refusal := .next s

/-- Routing by tag (43_entity R222, R223). `good` is the packet of a frame that is not corrupt. -/
def State.route (s : State) (tag : Nat) (good : Option Packet) : State :=
  match kindOfTag tag with
  | some .ack => s.onAckReceived (good.map (·.number))
  | some .data => s.onDataReceived (good.map fun p => (p.number, p.payload))
  | none => s.classify .dropUnknownKind

/-- `rx_dispatch(B)` (43_entity R222). -/
def State.rxDispatch (s : State) (B : Bytes) : State :=
  match decodeFrame B with
  | .packet p => s.route p.kind (if verify B then some p else none)
  | .fail (some tag) => s.route tag none
  | .fail none => s.classify .dropUnreadable

/-- RX (43_entity R222). A sequence longer than the interface admits is no stimulus: no step (R246; log 5). -/
def execRx (B : Bytes) (s : State) : Host.Outcome State Fault Refusal :=
  if s.frameAdmitted B then .next ((s.beginStep.rxDispatch B).endStep (.rx B)) else .next s

/-- TRANSMIT handed out: it joins the action list (43_entity R240, R241; log 12). -/
def execTransmit (entity : EntityId) (isAck : Bool) (frame : Bytes) (s : State) : Host.Outcome State Fault Refusal :=
  .next (s.emit (.transmit entity isAck frame))

/-- DELIVER handed out (R240, R242; log 12). -/
def execDeliver (entity : EntityId) (payload : Bytes) (s : State) : Host.Outcome State Fault Refusal :=
  .next (s.emit (.deliver entity payload))

/-- START_TIMER handed out (R240, R243; log 12). -/
def execStartTimer (entity : EntityId) (duration : Duration) (s : State) : Host.Outcome State Fault Refusal :=
  .next (s.emit (.startTimer entity duration))

/-- STOP_TIMER handed out (R240, R244; log 12). -/
def execStopTimer (entity : EntityId) (s : State) : Host.Outcome State Fault Refusal :=
  .next (s.emit (.stopTimer entity))

end Sys2Proof.Machine
end

