-- ==== Sys2Proof/Machine/FramerCalls.lean ====
section
/-! DEFINITION. The three framer functions as calls (30_encoding R112): pure, the answer goes to the caller (40_framer R130). -/

namespace Sys2Proof.Machine

/-- ENCODE (40_framer R134). -/
def execFrmEncode (kind : Kind) (number : Int) (payload : Bytes) (s : State) : Host.Outcome State Fault Refusal :=
  .next (s.answer (.frame (encodeFrame kind number payload)))

/-- DECODE (40_framer R135). -/
def execFrmDecode (bytes : Bytes) (s : State) : Host.Outcome State Fault Refusal :=
  .next (s.answer (.decoded (decodeFrame bytes)))

/-- VERIFY (40_framer R136). -/
def execFrmVerify (bytes : Bytes) (s : State) : Host.Outcome State Fault Refusal :=
  .next (s.answer (.verdict (verify bytes)))

end Sys2Proof.Machine
end

