-- ==== Sys2Proof/Machine/Dispatch.lean ====
section
/-! DEFINITION. One arm per operation, each a direct call of its meaning. -/

namespace Sys2Proof.Machine

def exec (i : Instr) (s : State) : Host.Outcome State Fault Refusal :=
  match i with
  | .idle => Sys2Proof.Machine.execIdle s
  | .submit payload => Sys2Proof.Machine.execSubmit payload s
  | .rx frame => Sys2Proof.Machine.execRx frame s
  | .timeout => Sys2Proof.Machine.execTimeout s
  | .pktAck number checksum payloadLength body => Sys2Proof.Machine.execPktAck number checksum payloadLength body s
  | .pktData number checksum payloadLength body => Sys2Proof.Machine.execPktData number checksum payloadLength body s
  | .transmit entity isAck frame => Sys2Proof.Machine.execTransmit entity isAck frame s
  | .deliver entity payload => Sys2Proof.Machine.execDeliver entity payload s
  | .startTimer entity duration => Sys2Proof.Machine.execStartTimer entity duration s
  | .stopTimer entity => Sys2Proof.Machine.execStopTimer entity s
  | .frmEncode kind number payload => Sys2Proof.Machine.execFrmEncode kind number payload s
  | .frmDecode bytes => Sys2Proof.Machine.execFrmDecode bytes s
  | .frmVerify bytes => Sys2Proof.Machine.execFrmVerify bytes s

end Sys2Proof.Machine
end

