-- ==== Sys2Proof/Machine/Fetch.lean ====
section
/-! DEFINITION. Which waiting stimulus the controller takes next (43_entity R230, R228, R246). The entity fetches no
instruction (20_memory R79): a stimulus taken is what stands in the place of one. -/

namespace Sys2Proof.Machine

/-- The record a waiting stimulus is read as: a STIM record at the stimulus port, a frame at the channel. -/
def Waiting.record (w : Waiting) : Record :=
  match w.port with
  | .stimulus => ⟨.stim, w.bytes⟩
  | .channel => ⟨.pkt, w.bytes⟩

/-- Whether the entity takes an operation now: SUBMIT by R228, a frame by R246, everything else always (R229). -/
def State.admits (s : State) : Instr → Bool
  | .submit payload => s.submitAdmitted payload
  | .rx frame => s.frameAdmitted frame
  | .pktAck n c l body => s.frameAdmitted (packetBytes .ack n c l body)
  | .pktData n c l body => s.frameAdmitted (packetBytes .data n c l body)
  | .idle => true
  | .timeout => true
  | .transmit _ _ _ => true
  | .deliver _ _ => true
  | .startTimer _ _ => true
  | .stopTimer _ => true
  | .frmEncode _ _ _ => true
  | .frmDecode _ => true
  | .frmVerify _ => true

/-- The operation that a waiting stimulus offers: what its record decodes to, if the entity takes that now. A record that is
no operation is no stimulus (30_encoding R102) and offers none: nothing is refused for it (60_exceptions R260; DESIGN CHOICE,
log 18). -/
def State.offers (s : State) (w : Waiting) : Option Instr :=
  match decode w.record with
  | .ok i => if s.admits i then some i else none
  | .error _ => none

/-- The operation of the first waiting stimulus that offers one, and those that go on waiting, in their order. -/
def State.takeNext (s : State) : List Waiting → Option (Instr × List Waiting)
  | [] => none
  | w :: rest =>
    match s.offers w with
    | some i => some (i, rest)
    | none => (s.takeNext rest).map fun (i, left) => (i, w :: left)

/-- The waiting stimulus that a word of the opcode table stands for (log 10). -/
def waitingOfTableWord (nbits w : Nat) : Waiting :=
  let r := recordOfTableWord nbits w
  match r.format with
  | .pkt => ⟨.channel, r.bytes⟩
  | .stim => ⟨.stimulus, r.bytes⟩
  | .act => ⟨.stimulus, r.bytes⟩
  | .frm => ⟨.stimulus, r.bytes⟩

end Sys2Proof.Machine
end

