-- ==== Sys2Proof/Machine/Step.lean ====
section
/-! DEFINITION. One step: take the next waiting stimulus that can be taken and run its operation to completion
(43_entity R221). With nothing to take, nothing happens, as for IDLE. -/

namespace Sys2Proof.Machine

def step (s : State) : Host.Outcome State Fault Refusal :=
  match s.takeNext s.inbox with
  | none => .next s
  | some (i, left) => exec i { s with inbox := left }

/-- `s` with the operation of a word of the opcode table presented first. A program is a list of stimuli that the
environment presents from outside the machine (log 4). -/
def State.withFetchWord (s : State) (nbits w : Nat) : State :=
  { s with inbox := waitingOfTableWord nbits w :: s.inbox }

end Sys2Proof.Machine
end

