-- ==== Sys2Proof/Safety.lean ====
section
/-! DEFINITION. The terms in which claims say what a good state and a good trace are: the invariants of 10_state R23, R24,
R31, R40 and R41, the timer discipline of 41_sender R182, the delivery and ACK orders of 42_receiver R206 and R209, and the
order of submission of 41_sender R168. -/

namespace Sys2Proof.Machine

/-- The sender's and the receiver's invariants, true after reset and after every step. -/
structure Inv (s : State) : Prop where
  /-- R23, lower half -/
  base_le_next : s.windowBase ≤ s.nextSeqNum
  /-- R23, upper half -/
  next_le_window : s.nextSeqNum ≤ s.windowBase + s.cfg.windowSize
  /-- R22, the range of the sequencer registers -/
  next_le_max : s.nextSeqNum ≤ 2147483648
  /-- R24, the domain of `UB` is the window, and its list is canonical -/
  domain : s.unackedBuffer.keys = List.range' s.windowBase (s.nextSeqNum - s.windowBase)
  /-- R40 (d), every stored frame is the DATA frame of its key -/
  frames : ∀ n f, s.unackedBuffer.read n = some f →
    ∃ p : Bytes, p.length ≤ s.cfg.maxPayload ∧ f = encodeFrame .data (n : Int) p
  /-- R40 (b), a payload waits only while there is no room -/
  pending_blocked : s.pendingQueue ≠ [] → s.hasRoom = false
  /-- R25, the length of a payload -/
  pending_length : ∀ p ∈ s.pendingQueue, p.length ≤ s.cfg.maxPayload
  /-- 20_memory R69, the capacity of the queue -/
  pending_depth : ∀ depth, s.cfg.pendingDepth = some depth → s.pendingQueue.length ≤ depth
  /-- R28 and R40 (c), a timer runs while a packet is unacknowledged -/
  timer : s.windowBase ≠ s.nextSeqNum → s.timerRunning = true
  /-- R29, the range of the receiver's register -/
  expected_le_max : s.expectedSeqNum ≤ 2147483648
  /-- R31 -/
  last_ack : s.lastAckNum = (s.expectedSeqNum : Int) - 1

/-- What the timer discipline speaks of (41_sender R182). -/
inductive TimerEvent where
  | start
  | stop
  | fired
  deriving DecidableEq, Repr

/-- The timer actions of an action list, in order. -/
def timerActions (as : List Action) : List TimerEvent :=
  as.filterMap fun
    | .startTimer _ _ => some .start
    | .stopTimer _ => some .stop
    | .transmit _ _ _ => none
    | .deliver _ _ => none

/-- The timer events of one step: a TIMEOUT has fired before the step's own actions. -/
def entryTimerEvents (e : TraceEntry) : List TimerEvent :=
  (if e.stimulus = .timeout then [.fired] else []) ++ timerActions e.actions

/-- The timer events of a trace, in order. -/
def timerEvents (tr : List TraceEntry) : List TimerEvent := tr.flatMap entryTimerEvents

/-- The discipline as an automaton over "a timer is outstanding": a start needs none outstanding, a stop needs one, and a
TIMEOUT leaves none. `none` is a breach. -/
def timerAutomaton : Bool → List TimerEvent → Option Bool
  | b, [] => some b
  | _, .fired :: rest => timerAutomaton false rest
  | b, .start :: rest => if b then none else timerAutomaton true rest
  | b, .stop :: rest => if b then timerAutomaton false rest else none

/-- The timer events of the trace keep the discipline and end in the state that `timer_running` mirrors (R28, R182). -/
def TimerDiscipline (s : State) : Prop := timerAutomaton false (timerEvents s.trace) = some s.timerRunning

/-- The payloads an action list delivers, in order. -/
def deliveredPayloads (as : List Action) : List Bytes :=
  as.filterMap fun
    | .deliver _ p => some p
    | .transmit _ _ _ => none
    | .startTimer _ _ => none
    | .stopTimer _ => none

/-- The packet that a stimulus brought, when it is a frame that is not corrupt. -/
def goodPacket : Stimulus → Option Packet
  | .submit _ => none
  | .timeout => none
  | .rx B =>
    match decodeFrame B with
    | .packet p => if verify B then some p else none
    | .fail _ => none

/-- Every delivery of a trace, in order, with the good packet of the step that made it. -/
def deliveries (tr : List TraceEntry) : List (Option Packet × Bytes) :=
  tr.flatMap fun e => (deliveredPayloads e.actions).map fun p => (goodPacket e.stimulus, p)

/-- 42_receiver R206: the `k`-th DELIVER carries the payload of a non-corrupt DATA frame whose number is `k`, and there
were as many as `expected_seq_num` says. -/
def InOrderDelivery (s : State) : Prop :=
  (deliveries s.trace).length = s.expectedSeqNum ∧
  ∀ (k : Nat) d, (deliveries s.trace)[k]? = some d →
    ∃ p : Packet, d = (some p, p.payload) ∧ p.kind = 128 ∧ p.number = (k : Int)

/-- The numbers of the ACK frames an action list transmits, in order. -/
def ackNumbersOf (as : List Action) : List Int :=
  as.filterMap fun
    | .transmit _ true f => some (s32 (u32 f 2))
    | .transmit _ false _ => none
    | .deliver _ _ => none
    | .startTimer _ _ => none
    | .stopTimer _ => none

/-- The numbers of the ACK frames a trace transmits, in order. -/
def ackNumbers (tr : List TraceEntry) : List Int := tr.flatMap fun e => ackNumbersOf e.actions

/-- A list of ACK numbers that never falls and rises by at most 1 a time, starting from `last`, and what it ends in. -/
def ackWalk : Int → List Int → Option Int
  | last, [] => some last
  | last, n :: rest => if n = last ∨ n = last + 1 then ackWalk n rest else none

/-- 42_receiver R209: the ACK numbers start at −1 or 0, never decrease, rise by at most 1, and end at `last_ack_num`. -/
def AckOrder (s : State) : Prop := ackWalk (-1) (ackNumbers s.trace) = some s.lastAckNum

/-- The payloads of the SUBMITs a trace took, in order. -/
def submitted (tr : List TraceEntry) : List Bytes :=
  tr.filterMap fun e =>
    match e.stimulus with
    | .submit p => some p
    | .rx _ => none
    | .timeout => none

/-- The DATA frames an action list transmits, in order. -/
def dataFrames (as : List Action) : List Bytes :=
  as.filterMap fun
    | .transmit _ false f => some f
    | .transmit _ true _ => none
    | .deliver _ _ => none
    | .startTimer _ _ => none
    | .stopTimer _ => none

/-- The DATA frames a trace transmits for the first time, in order: those of every step but a TIMEOUT. -/
def firstTransmissions (tr : List TraceEntry) : List Bytes :=
  tr.flatMap fun e => if e.stimulus = .timeout then [] else dataFrames e.actions

/-- Payloads are framed once each, in the order they were submitted, numbered 0, 1, 2, …; what is not framed yet waits in
`PQ` in the same order (41_sender R168 (b), R174; 10_state R22, R25). -/
def SubmissionOrder (s : State) : Prop :=
  s.nextSeqNum ≤ (submitted s.trace).length ∧
  firstTransmissions s.trace =
    ((submitted s.trace).take s.nextSeqNum).mapIdx (fun n p => encodeFrame .data (n : Int) p) ∧
  s.pendingQueue = (submitted s.trace).drop s.nextSeqNum

/-- An action as this entity makes them: its own `ENTITY_ID` (30_encoding R104), its own `timer_interval` (43_entity
R243), `is_ack` by kind (R105), and only the two shapes of frame of 30_encoding R110. -/
def OwnAction (c : Config) : Action → Prop
  | .transmit e true f => e = c.entityId ∧ ∃ n : Int, -1 ≤ n ∧ n ≤ (seqMax : Int) ∧ f = encodeFrame .ack n []
  | .transmit e false f =>
    e = c.entityId ∧ ∃ (n : Nat) (p : Bytes), n ≤ seqMax ∧ p.length ≤ c.maxPayload ∧ f = encodeFrame .data (n : Int) p
  | .deliver e _ => e = c.entityId
  | .startTimer e d => e = c.entityId ∧ d = c.timerInterval
  | .stopTimer e => e = c.entityId

/-- Every action of the trace is the entity's own. -/
def OwnTrace (s : State) : Prop := ∀ e ∈ s.trace, ∀ a ∈ e.actions, OwnAction s.cfg a

/-- All of the above together. -/
structure Good (s : State) : Prop where
  inv        : Inv s
  timer      : TimerDiscipline s
  delivery   : InOrderDelivery s
  acks       : AckOrder s
  submission : SubmissionOrder s
  own        : OwnTrace s

/-- The actions of `timer_start()` (41_sender R164): a stop first if a timer is outstanding. -/
def startActions (s : State) : List Action :=
  (if s.timerRunning then [.stopTimer s.cfg.entityId] else []) ++ [.startTimer s.cfg.entityId s.cfg.timerInterval]

/-- The DATA frames for payloads numbered from `first` up, with their keys. -/
def numberedFrames (first : Nat) (ps : List Bytes) : List (Nat × Bytes) :=
  ps.mapIdx fun j p => (first + j, encodeFrame .data ((first + j : Nat) : Int) p)

/-- The frames that still fit when the window starts at `base` (41_sender R163, R175). -/
def roomFrom (s : State) (base : Nat) : Nat := min (base + s.cfg.windowSize) 2147483648 - s.nextSeqNum

/-- What an accepted ACK for `n` drains from the queue (41_sender R174, R175). -/
def drained (s : State) (n : Nat) : List Bytes := s.pendingQueue.take (roomFrom s (n + 1))

/-- The actions of the drain loop: each frame is transmitted, and a bare START follows the first if the ACK had emptied
the window (41_sender R174). -/
def drainActions (s : State) (emptied : Bool) (frames : List (Nat × Bytes)) : List Action :=
  match frames with
  | [] => []
  | f :: rest =>
    .transmit s.cfg.entityId false f.2 ::
      ((if emptied then [.startTimer s.cfg.entityId s.cfg.timerInterval] else []) ++
        rest.map fun g => .transmit s.cfg.entityId false g.2)

/-- A frame with bit `k` of byte `i` flipped. -/
def flipBit (B : Bytes) (i k : Nat) : Bytes := B.modify i fun b => b ^^^ BitVec.ofNat 8 (2 ^ k)

/-- A change carried through an outcome. -/
def mapNext (f : State → State) : Host.Outcome State Fault Refusal → Host.Outcome State Fault Refusal
  | .next s => .next (f s)
  | .fault r => .fault r
  | .refused r => .refused r

/-- A state with the receiver's two registers replaced (10_state R39). -/
def withReceiver (s : State) (expected : Nat) (lastAck : Int) : State :=
  { s with expectedSeqNum := expected, lastAckNum := lastAck }

/-- A state with the sender's registers and stores replaced by those of another (10_state R39). -/
def withSenderOf (s u : State) : State :=
  { s with
    windowBase := u.windowBase
    nextSeqNum := u.nextSeqNum
    unackedBuffer := u.unackedBuffer
    pendingQueue := u.pendingQueue
    timerRunning := u.timerRunning }

/-- The operations that are a step when they are taken (00_scope R16): a SUBMIT, an RX or a frame inside one, a
TIMEOUT. -/
def isStepOp : Instr → Bool
  | .submit _ => true
  | .rx _ => true
  | .timeout => true
  | .pktAck _ _ _ _ => true
  | .pktData _ _ _ _ => true
  | .idle => false
  | .transmit _ _ _ => false
  | .deliver _ _ => false
  | .startTimer _ _ => false
  | .stopTimer _ => false
  | .frmEncode _ _ _ => false
  | .frmDecode _ => false
  | .frmVerify _ => false

/-- The operations that are an RX: one taken at the stimulus port, or a frame from the channel. -/
def isReceiveOp : Instr → Bool
  | .rx _ => true
  | .pktAck _ _ _ _ => true
  | .pktData _ _ _ _ => true
  | .idle => false
  | .submit _ => false
  | .timeout => false
  | .transmit _ _ _ => false
  | .deliver _ _ => false
  | .startTimer _ _ => false
  | .stopTimer _ => false
  | .frmEncode _ _ _ => false
  | .frmDecode _ => false
  | .frmVerify _ => false

/-- The condition of each class on a received byte sequence, in the order of the table of 60_exceptions R262 (R263: the
first that applies). It is written from that table, not from the routing of 43_entity R222. -/
def rxClassOf (s : State) (B : Bytes) : RxClass :=
  match frameTag B with
  | none => .dropUnreadable
  | some tag =>
    if tag ≠ 0 ∧ tag ≠ 128 then .dropUnknownKind
    else if tag = 0 then
      if corrupt B then .ackCorrupt
      else if s32 (u32 B 2) < (s.windowBase : Int) then .ackStale
      else if s32 (u32 B 2) ≥ (s.nextSeqNum : Int) then .ackAhead
      else .ackAccept
    else
      if corrupt B then .dataCorrupt
      else if s32 (u32 B 2) ≠ (s.expectedSeqNum : Int) then .dataUnexpected
      else .dataAccept

end Sys2Proof.Machine
end

