-- ==== Sys2Proof/WellFormed.lean ====
section
/-! DEFINITION. Which operations have a record: the operand ranges that the fields of 30_encoding R102 and R103 and
the domain of `encode` (40_framer R134) allow. -/

namespace Sys2Proof

/-- A byte sequence that the 32-bit `len` field can describe (30_encoding R102, R103). DESIGN CHOICE (log 14): a longer frame,
which 43_entity R246 and 30_encoding R111 let the entity take and send, has no STIM or ACT record. -/
abbrev fitsLen (b : Bytes) : Prop := b.length < 4294967296

/-- Well-formedness. TRANSMIT's `is_ack` is 1 exactly when its frame is an ACK (30_encoding R105); ENCODE's number
is in the signed 32-bit range (40_framer R134). A packet needs no check: every value of its fields is legal
(30_encoding R109), and the length its header declares may differ from the bytes that follow (R101). -/
def Instr.wellFormed : Instr → Bool
  | .idle => true
  | .submit payload => decide (fitsLen payload)
  | .rx frame => decide (fitsLen frame)
  | .timeout => true
  | .pktAck _ _ _ _ => true
  | .pktData _ _ _ _ => true
  | .transmit _ isAck frame => decide (fitsLen frame) && (isAck == Machine.isAckFrame frame)
  | .deliver _ payload => decide (fitsLen payload)
  | .startTimer _ _ => true
  | .stopTimer _ => true
  | .frmEncode _ number payload => decide (fitsLen payload) && Machine.inNumberRange number
  | .frmDecode bytes => decide (fitsLen bytes)
  | .frmVerify bytes => decide (fitsLen bytes)

end Sys2Proof
end

