-- ==== Sys2Proof/Certificates/Slice0/Obligations.lean ====
section
/-! DEFINITION. The statements about this model. Each docstring names the rule of spec/ that it formalises. Where a next state
is given whole, its fields `out` and `trace` are the model's way to hold a step's actions, class and trace (log 6), and
`inbox` is untouched by every operation (log 4). -/

open Sys2Proof Sys2Proof.Machine

-- ==================== reset, the step, the encodings ====================

/-- 70_reset R311 (and R312): the state after reset, for every configuration, and that reset emits no action. `State.reset` is
the state after reset of one configuration, whose parameters are log 1. -/
def Obligations.ResetStateAsSpecified : Prop :=
  ∀ c : Config,
    (State.resetWith c).windowBase = 0 ∧ (State.resetWith c).nextSeqNum = 0 ∧
    (State.resetWith c).unackedBuffer = [] ∧ (State.resetWith c).pendingQueue = [] ∧
    (State.resetWith c).timerRunning = false ∧ (State.resetWith c).expectedSeqNum = 0 ∧
    (State.resetWith c).lastAckNum = -1 ∧ (State.resetWith c).cfg = c ∧
    (State.resetWith c).windowEmpty = true ∧ (State.resetWith c).hasRoom = true ∧
    (∀ p : Bytes, p.length ≤ c.maxPayload → (State.resetWith c).admits (.submit p) = true) ∧
    (∀ B : Bytes, B.length ≤ 12 + c.maxPayload → (State.resetWith c).admits (.rx B) = true) ∧
    (State.resetWith c).admits .timeout = true ∧
    (State.resetWith c).out.actions = [] ∧ (State.resetWith c).trace = [] ∧
    ∃ c₀, State.reset = State.resetWith c₀

/-- 43_entity R221: a step runs the operation of the stimulus it takes, and nothing else. The four cases: an operation is
taken; the first stimulus waiting decodes to an operation that is admitted; the first one is no operation (log 18), and the
one behind it decodes to an operation that is admitted; no operation is offered. -/
def Obligations.StepRunsTheDecodedOperation : Prop :=
  (∀ (s : State) (left : List Waiting) (i : Instr),
    s.takeNext s.inbox = some (i, left) → step s = exec i { s with inbox := left }) ∧
  (∀ (s : State) (w : Waiting) (rest : List Waiting) (i : Instr),
    s.inbox = w :: rest → decode w.record = .ok i → s.admits i = true → step s = exec i { s with inbox := rest }) ∧
  (∀ (s : State) (v w : Waiting) (rest : List Waiting) (e : DecodeError) (i : Instr),
    s.inbox = v :: w :: rest → decode v.record = .error e → decode w.record = .ok i → s.admits i = true →
    step s = exec i { s with inbox := v :: rest }) ∧
  (∀ s : State, (∀ w ∈ s.inbox, ∀ i, decode w.record = .ok i → s.admits i = false) → step s = .next s)

/-- 43_entity R228, R229, R230, R246 (logs 4, 18): a waiting stimulus offers the operation that its record decodes to exactly
when that operation is admitted, and a record that is no operation offers none. The operation taken is that of the first
waiting stimulus that offers one; those before it, which are not admitted, and those after it go on waiting in their order.
Admission is R228's condition for a SUBMIT and R246's for a received frame; everything else is always admitted. -/
def Obligations.TakesTheFirstReadyStimulus : Prop :=
  (∀ (s : State) (w : Waiting) (i : Instr),
    decode w.record = .ok i → s.offers w = if s.admits i = true then some i else none) ∧
  (∀ (s : State) (w : Waiting) (e : DecodeError), decode w.record = .error e → s.offers w = none) ∧
  (∀ (s : State) (q : List Waiting) (i : Instr) (left : List Waiting),
    s.takeNext q = some (i, left) ↔
      ∃ before w after, q = before ++ w :: after ∧ left = before ++ after ∧
        decode w.record = .ok i ∧ s.admits i = true ∧
        ∀ x ∈ before, ∀ j, decode x.record = .ok j → s.admits j = false) ∧
  (∀ (s : State) (p : Bytes), s.admits (.submit p) = true ↔
    p.length ≤ s.cfg.maxPayload ∧
      (s.hasRoom = true ∨ ∀ depth, s.cfg.pendingDepth = some depth → s.pendingQueue.length < depth)) ∧
  (∀ (s : State) (B : Bytes), s.admits (.rx B) = true ↔ B.length ≤ 12 + s.cfg.maxPayload) ∧
  (∀ (s : State) (n : BitVec 32) (c : BitVec 16) (l : BitVec 32) (body : Bytes),
    (s.admits (.pktAck n c l body) = true ↔ body.length ≤ s.cfg.maxPayload) ∧
    (s.admits (.pktData n c l body) = true ↔ body.length ≤ s.cfg.maxPayload)) ∧
  (∀ (s : State) (i : Instr), isReceiveOp i = false → (∀ p, i ≠ .submit p) → s.admits i = true)

/-- Log 10: a word of the opcode table placed where the step looks next is the operation that the step runs, in every state
that admits it. -/
def Obligations.TableWordRunsNext : Prop :=
  ∀ (s : State) (nbits w : Nat) (i : Instr),
    decodeTableWord nbits w = some i → s.admits i = true → step (s.withFetchWord nbits w) = exec i s

/-- Decoding the record of a well-formed operation gives it back, for all thirteen operations and every operand. The layout of
an STIM, ACT or FRM record past its code is the model's choice (logs 7, 8, 9). -/
def Obligations.DecodeUndoesEncode : Prop :=
  ∀ i : Instr, i.wellFormed = true → decode (encode i) = .ok i

/-- The decoder answers only well-formed operations (of a frame, when its length fits the `len` field of an RX record; log 14). -/
def Obligations.DecodedIsWellFormed : Prop :=
  ∀ (r : Record) (i : Instr),
    decode r = .ok i → (r.format = .pkt → r.bytes.length < 4294967296) → i.wellFormed = true

/-- Words written out from 30_encoding R91, R102, R103, R112 decode to what they stand for. The layout of an STIM, ACT or
FRM record past its code is the model's choice (logs 7, 8, 9). -/
def Obligations.WrittenOutWordsDecode : Prop :=
  decode ⟨.stim, [0, 0, 0, 0, 0]⟩ = .ok .idle ∧
  decode ⟨.stim, [0x03, 0, 0, 0, 0]⟩ = .ok .timeout ∧
  decode ⟨.stim, [0x05, 0, 0, 0, 0xE0, 0x01]⟩ = .ok (.submit [0x78]) ∧
  decode ⟨.stim, [0x0A, 0, 0, 0, 0x00, 0xFC, 0x03]⟩ = .ok (.rx [0x00, 0xFF]) ∧
  decode ⟨.pkt, [0, 0, 0, 0, 0, 0, 0xFF, 0xFF, 0, 0, 0, 0]⟩ = .ok (.pktAck 0 0xFFFF 0 []) ∧
  decode ⟨.pkt, [0, 0x80, 0x7F, 0xFF, 0xFF, 0xFF, 0x25, 0x7F, 0, 0, 0, 1, 0x5A]⟩ =
    .ok (.pktData 0x7FFFFFFF 0x257F 1 [0x5A]) ∧
  decode ⟨.act, [0x08, 0, 0, 0, 0xC0, 0, 0, 0, 0, 0, 0, 0, 0, 0, 0xF0, 0xFF, 0x0F, 0, 0, 0, 0]⟩ =
    .ok (.transmit .A true [0, 0, 0, 0, 0, 0, 0xFF, 0xFF, 0, 0, 0, 0]) ∧
  decode ⟨.act, [0x05, 0, 0, 0, 0x10, 0, 0, 0, 0x10, 0x06]⟩ = .ok (.deliver .B [0x61]) ∧
  decode ⟨.act, [0x12, 0, 0, 0, 0, 0, 0, 0, 0]⟩ = .ok (.startTimer .A ⟨1⟩) ∧
  decode ⟨.act, [0x07, 0, 0, 0, 0, 0, 0, 0, 0]⟩ = .ok (.stopTimer .B) ∧
  decode ⟨.frm, [0x00, 0x02, 0x04, 0, 0, 0, 0x04, 0, 0, 0, 0xE0, 0x01]⟩ = .ok (.frmEncode .data 1 [0x78]) ∧
  decode ⟨.frm, [0x01, 0, 0, 0, 0]⟩ = .ok (.frmDecode []) ∧
  decode ⟨.frm, [0x02, 0, 0, 0, 0]⟩ = .ok (.frmVerify []) ∧
  decode ⟨.frm, [0x03, 0, 0, 0, 0]⟩ = .error .unusedSelect

-- ==================== the framer ====================

/-- 40_framer R132, its four properties and the per-addition form of the fold. -/
def Obligations.EndAroundFoldLaws : Prop :=
  (∀ S : Nat, S ≤ 65535 → fold16 S = S) ∧
  (∀ S : Nat, 65535 < S → S % 65536 + S / 65536 < S ∧ fold16 S = fold16 (S % 65536 + S / 65536)) ∧
  (∀ S : Nat, fold16 S ≤ 65535 ∧ fold16 S % 65535 = S % 65535 ∧ (fold16 S = 0 ↔ S = 0)) ∧
  (∀ S : Nat, 0 < S → fold16 S = if S % 65535 = 0 then 65535 else S % 65535) ∧
  (∀ ws : List Nat, (∀ w ∈ ws, w ≤ 65535) → ws.foldl endAroundAdd 0 = fold16 ws.sum)

/-- 40_framer R133: the range of the folded sum, when it is 0, and that the order of the words does not matter. -/
def Obligations.ChecksumSumLaws : Prop :=
  (∀ B : Bytes, ocsum B = fold16 (words B).sum ∧ ocsum B ≤ 65535) ∧
  (∀ B : Bytes, ocsum B = 0 ↔ ∀ b ∈ B, b = 0) ∧
  (∀ B C : Bytes, (words B).Perm (words C) → ocsum B = ocsum C)

/-- 40_framer R137: a frame fresh from `encode` verifies, of either kind, for every payload and every number in range. -/
def Obligations.FreshFramesVerify : Prop :=
  ∀ (k : Kind) (n : Int) (p : Bytes),
    -2147483648 ≤ n → n < 2147483648 → p.length < 4294967296 → verify (encodeFrame k n p) = true

/-- 40_framer R138: one flipped bit of a frame that verified is always detected, and the frame is then corrupt. -/
def Obligations.SingleBitFlipIsDetected : Prop :=
  ∀ (B : Bytes) (i k : Nat), i < B.length → k < 8 → verify B = true →
    verify (flipBit B i k) = false ∧ corrupt (flipBit B i k) = true

/-- 40_framer R140: `decode` of a frame from `encode` gives its parts back. -/
def Obligations.FramerRoundTrip : Prop :=
  ∀ (k : Kind) (n : Int) (p : Bytes),
    -2147483648 ≤ n → n < 2147483648 → p.length < 4294967296 →
    decodeFrame (encodeFrame k n p) =
      .packet { kind := kindTag k, number := n, checksum := 65535 - ocsum (unsummedFrame k n p)
                payloadLength := p.length, payload := p }

/-- 40_framer R139: damage that `verify` cannot see. A frame passes exactly when its word sum is a positive multiple of 65535;
so a permutation of words passes, a word `0x0000` in place of `0xFFFF` passes while the sum stays positive, and zero bytes
after a frame pass and are ignored by `decode`. -/
def Obligations.DamageThatVerifyCannotSee : Prop :=
  (∀ B : Bytes, verify B = true ↔ 0 < (words B).sum ∧ (words B).sum % 65535 = 0) ∧
  (∀ B C : Bytes, (words B).Perm (words C) → verify C = verify B) ∧
  (∀ (B C : Bytes) (before after : List Nat), words B = before ++ 0 :: after → words C = before ++ 65535 :: after →
    0 < (words B).sum → verify C = verify B) ∧
  (∀ (B : Bytes) (z : Nat), verify (B ++ List.replicate z 0) = verify B ∧
    ∀ p : Packet, decodeFrame B = .packet p → decodeFrame (B ++ List.replicate z 0) = .packet p)

/-- 40_framer R134 and R130: ENCODE completes in every state, its answer is the frame that R134's pseudocode builds, and no
register changes. -/
def Obligations.EncodeCallAnswersTheFrame : Prop :=
  ∀ (s : State) (k : Kind) (n : Int) (p : Bytes),
    -2147483648 ≤ n → n < 2147483648 → p.length < 4294967296 →
    ∃ (B0 B : Bytes) (c : Nat),
      B0 = be16 (if k = .ack then 0 else 128) ++ be32 (t32 n) ++ [0, 0] ++ be32 p.length ++ p ∧
      c = 65535 - ocsum B0 ∧
      B = (B0.set 6 (BitVec.ofNat 8 (c / 256))).set 7 (BitVec.ofNat 8 (c % 256)) ∧
      exec (.frmEncode k n p) s = .next { s with out := { s.out with framer := some (.frame B) } }

/-- 40_framer R135, R136 and R130: DECODE and VERIFY complete in every state on every byte sequence, with the answers that
the rules' pseudocode gives, and no register changes. -/
def Obligations.DecodeAndVerifyCallsAnswer : Prop :=
  ∀ (s : State) (B : Bytes),
    (∃ d : DecodeResult,
      exec (.frmDecode B) s = .next { s with out := { s.out with framer := some (.decoded d) } } ∧
      (B.length < 2 → d = .fail none) ∧
      (2 ≤ B.length → B.length < 12 → d = .fail (some (u16 B 0))) ∧
      (12 ≤ B.length → B.length < 12 + u32 B 8 → d = .fail (some (u16 B 0))) ∧
      (12 ≤ B.length → 12 + u32 B 8 ≤ B.length →
        ∃ p : Packet, d = .packet p ∧ p.kind = u16 B 0 ∧ p.number = s32 (u32 B 2) ∧ p.checksum = u16 B 6 ∧
          p.payloadLength = u32 B 8 ∧ p.payload.length = u32 B 8 ∧
          ∀ j, j < u32 B 8 → p.payload[j]? = B[12 + j]?)) ∧
    exec (.frmVerify B) s =
      .next { s with out := { s.out with framer := some (.verdict (decide (ocsum B = 65535))) } } ∧
    (65531 ≤ ocsum B → ocsum B ≤ 65534 → verify B = false)

-- ==================== IDLE and the actions ====================

/-- 30_encoding R102: IDLE changes no state and emits no action. -/
def Obligations.IdleChangesNothing : Prop := ∀ s : State, exec .idle s = .next s

/-- 43_entity R240 to R244 (log 12): an action handed out joins the end of the action list and changes no register. -/
def Obligations.ActionsJoinTheList : Prop :=
  ∀ s : State,
    (∀ e a f, exec (.transmit e a f) s =
      .next { s with out := { s.out with actions := s.out.actions ++ [.transmit e a f] } }) ∧
    (∀ e p, exec (.deliver e p) s = .next { s with out := { s.out with actions := s.out.actions ++ [.deliver e p] } }) ∧
    (∀ e d, exec (.startTimer e d) s =
      .next { s with out := { s.out with actions := s.out.actions ++ [.startTimer e d] } }) ∧
    (∀ e, exec (.stopTimer e) s = .next { s with out := { s.out with actions := s.out.actions ++ [.stopTimer e] } })

-- ==================== SUBMIT ====================

/-- 41_sender R166, R167: an admitted SUBMIT that finds room frames, stores and transmits, arms the timer if the window was
empty, and increments. The whole next state. -/
def Obligations.SubmitWithRoomSends : Prop :=
  ∀ (s : State) (p : Bytes), p.length ≤ s.cfg.maxPayload → s.hasRoom = true →
    exec (.submit p) s =
      let pkt := encodeFrame .data (s.nextSeqNum : Int) p
      let actions := Action.transmit s.cfg.entityId false pkt ::
        if s.windowBase = s.nextSeqNum then
          (if s.timerRunning then [.stopTimer s.cfg.entityId] else []) ++
            [.startTimer s.cfg.entityId s.cfg.timerInterval]
        else []
      .next { s with
        nextSeqNum := s.nextSeqNum + 1
        unackedBuffer := s.unackedBuffer.write s.nextSeqNum pkt
        timerRunning := s.timerRunning || decide (s.windowBase = s.nextSeqNum)
        out := ⟨actions, none, none⟩
        trace := s.trace ++ [⟨.submit p, actions⟩] }

/-- 41_sender R167, 20_memory R67: an admitted SUBMIT that finds no room is queued at the tail and does nothing else. -/
def Obligations.SubmitWithoutRoomQueues : Prop :=
  ∀ (s : State) (p : Bytes), s.submitAdmitted p = true → s.hasRoom = false →
    exec (.submit p) s =
      .next { s with
        pendingQueue := s.pendingQueue ++ [p]
        out := ⟨[], none, none⟩
        trace := s.trace ++ [⟨.submit p, []⟩] }

/-- 43_entity R228, R246 (log 5): a SUBMIT or a frame that is not admitted is not taken: nothing changes. And the condition of
admission is R228's. -/
def Obligations.StimulusNotAdmittedChangesNothing : Prop :=
  ∀ s : State,
    (∀ p : Bytes, s.submitAdmitted p = true ↔
      p.length ≤ s.cfg.maxPayload ∧
        (s.hasRoom = true ∨ ∀ depth, s.cfg.pendingDepth = some depth → s.pendingQueue.length < depth)) ∧
    (∀ p : Bytes, s.submitAdmitted p = false → exec (.submit p) s = .next s) ∧
    (∀ B : Bytes, 12 + s.cfg.maxPayload < B.length → exec (.rx B) s = .next s) ∧
    (∀ n c l body, s.cfg.maxPayload < body.length →
      exec (.pktAck n c l body) s = .next s ∧ exec (.pktData n c l body) s = .next s)

/-- 41_sender R163, 70_reset R324: at the end of the sequence space an admitted SUBMIT queues, and no DATA frame is
accepted. -/
def Obligations.SequenceSpaceEnds : Prop :=
  (∀ (s : State) (p : Bytes), 2147483648 ≤ s.nextSeqNum → s.submitAdmitted p = true →
    ∃ t, exec (.submit p) s = .next t ∧ t.pendingQueue = s.pendingQueue ++ [p] ∧ t.nextSeqNum = s.nextSeqNum ∧
      t.unackedBuffer = s.unackedBuffer ∧ t.out.actions = []) ∧
  (∀ (s : State) (B : Bytes), 2147483648 ≤ s.expectedSeqNum → s.frameAdmitted B = true →
    ∃ t, exec (.rx B) s = .next t ∧ t.expectedSeqNum = s.expectedSeqNum ∧ t.lastAckNum = s.lastAckNum ∧
      deliveredPayloads t.out.actions = [])

-- ==================== TIMEOUT ====================

/-- 41_sender R177, R179: TIMEOUT completes in every state whose `UB` holds its window; it restarts the timer with a bare
START and then transmits the whole window, each frame as stored, in increasing order. The whole next state. -/
def Obligations.TimeoutResendsTheWindow : Prop :=
  ∀ s : State, (∀ n, s.windowBase ≤ n → n < s.nextSeqNum → (s.unackedBuffer.read n).isSome = true) →
    exec .timeout s =
      let actions := Action.startTimer s.cfg.entityId s.cfg.timerInterval ::
        (List.range' s.windowBase (s.nextSeqNum - s.windowBase)).map fun n =>
          .transmit s.cfg.entityId false ((s.unackedBuffer.read n).getD [])
      .next { s with
        timerRunning := true
        out := ⟨actions, none, none⟩
        trace := s.trace ++ [⟨.timeout, actions⟩] }

/-- 41_sender R178: TIMEOUT at an empty window completes in every state, the whole next state: it emits START alone and
leaves the timer running; the next SUBMIT that is sent then emits STOP and START after its frame. -/
def Obligations.TimeoutAtAnEmptyWindow : Prop :=
  ∀ s : State, s.windowBase = s.nextSeqNum →
    ∃ t, exec .timeout s = .next t ∧
      t = { s with
        timerRunning := true
        out := ⟨[.startTimer s.cfg.entityId s.cfg.timerInterval], none, none⟩
        trace := s.trace ++ [⟨.timeout, [.startTimer s.cfg.entityId s.cfg.timerInterval]⟩] } ∧
      ∀ p : Bytes, p.length ≤ s.cfg.maxPayload → s.hasRoom = true →
        ∃ u, exec (.submit p) t = .next u ∧
          u.out.actions = [.transmit s.cfg.entityId false (encodeFrame .data (s.nextSeqNum : Int) p),
            .stopTimer s.cfg.entityId, .startTimer s.cfg.entityId s.cfg.timerInterval]

-- ==================== ACK ====================

/-- 41_sender R170, R171, R172: a corrupt ACK, a stale ACK and an ACK ahead change no register, store or flag and emit no
action, the timer's included; they differ in their class. The tests are made in that order (R169). -/
def Obligations.AckNotAcceptedChangesNothing : Prop :=
  ∀ (s : State) (n : BitVec 32) (c : BitVec 16) (l : BitVec 32) (body : Bytes),
    body.length ≤ s.cfg.maxPayload →
    let B := packetBytes .ack n c l body
    let ignoredAs := fun (k : RxClass) =>
      exec (.pktAck n c l body) s =
        .next { s with out := ⟨[], some k, none⟩, trace := s.trace ++ [⟨.rx B, []⟩] }
    (verify B = false ∨ body.length < l.toNat → ignoredAs .ackCorrupt) ∧
    (verify B = true → l.toNat ≤ body.length →
      (n.toInt < (s.windowBase : Int) → ignoredAs .ackStale) ∧
      ((s.windowBase : Int) ≤ n.toInt → (s.nextSeqNum : Int) ≤ n.toInt → ignoredAs .ackAhead))

/-- 41_sender R173, R174, R175, R176: an accepted ACK, the whole next state. The base jumps past the acknowledged number at
once, older frames are evicted, the timer is stopped and restarted if packets remain, and the drain loop frames as many
queued payloads as fit; a bare START follows the first of them if the ACK had emptied the window. -/
def Obligations.AckAcceptedSlidesAndDrains : Prop :=
  ∀ (s : State) (n : BitVec 32) (c : BitVec 16) (l : BitVec 32) (body : Bytes) (m : Nat),
    body.length ≤ s.cfg.maxPayload → verify (packetBytes .ack n c l body) = true → l.toNat ≤ body.length →
    n.toInt = (m : Int) → s.windowBase ≤ m → m < s.nextSeqNum →
    exec (.pktAck n c l body) s =
      let emptied := decide (m + 1 = s.nextSeqNum)
      let frames := numberedFrames s.nextSeqNum (drained s m)
      let actions :=
        (if s.timerRunning then [Action.stopTimer s.cfg.entityId] else []) ++
        (if emptied then [] else [.startTimer s.cfg.entityId s.cfg.timerInterval]) ++
        drainActions s emptied frames
      .next { s with
        windowBase := m + 1
        nextSeqNum := s.nextSeqNum + (drained s m).length
        unackedBuffer := frames.foldl (fun ub f => ub.write f.1 f.2) (s.unackedBuffer.evictBelow (m + 1))
        pendingQueue := s.pendingQueue.drop (drained s m).length
        timerRunning := !emptied || !frames.isEmpty
        out := ⟨actions, some .ackAccept, none⟩
        trace := s.trace ++ [⟨.rx (packetBytes .ack n c l body), actions⟩] }

-- ==================== DATA ====================

/-- 42_receiver R202: the accept branch, the whole next state: DELIVER of the declared payload, then the new ACK, whose number
is stored; then the increment. The sender's state is unchanged. -/
def Obligations.DataAcceptedDeliversAndAcks : Prop :=
  ∀ (s : State) (n : BitVec 32) (c : BitVec 16) (l : BitVec 32) (body : Bytes),
    body.length ≤ s.cfg.maxPayload → verify (packetBytes .data n c l body) = true → l.toNat ≤ body.length →
    n.toInt = (s.expectedSeqNum : Int) →
    exec (.pktData n c l body) s =
      let actions := [Action.deliver s.cfg.entityId (body.take l.toNat),
        .transmit s.cfg.entityId true (encodeFrame .ack (s.expectedSeqNum : Int) [])]
      .next { s with
        expectedSeqNum := s.expectedSeqNum + 1
        lastAckNum := (s.expectedSeqNum : Int)
        out := ⟨actions, some .dataAccept, none⟩
        trace := s.trace ++ [⟨.rx (packetBytes .data n c l body), actions⟩] }

/-- 42_receiver R203, R204: the reject branch, the whole next state: the last ACK is sent again and no register changes; a
corrupt frame is rejected whatever its number reads. -/
def Obligations.DataRejectedResendsTheLastAck : Prop :=
  ∀ (s : State) (n : BitVec 32) (c : BitVec 16) (l : BitVec 32) (body : Bytes),
    body.length ≤ s.cfg.maxPayload →
    let B := packetBytes .data n c l body
    let actions := [Action.transmit s.cfg.entityId true (encodeFrame .ack s.lastAckNum [])]
    let rejectedAs := fun (k : RxClass) =>
      exec (.pktData n c l body) s =
        .next { s with out := ⟨actions, some k, none⟩, trace := s.trace ++ [⟨.rx B, actions⟩] }
    (verify B = false ∨ body.length < l.toNat → rejectedAs .dataCorrupt) ∧
    (verify B = true → l.toNat ≤ body.length → n.toInt ≠ (s.expectedSeqNum : Int) → rejectedAs .dataUnexpected)

/-- 42_receiver R207: a DATA packet below `expected_seq_num`, redelivered, makes no second delivery and exactly one re-send of
the last ACK. -/
def Obligations.DuplicateIsNeverDeliveredAgain : Prop :=
  ∀ (s : State) (B : Bytes) (p : Packet),
    s.frameAdmitted B = true → decodeFrame B = .packet p → p.kind = 128 → p.number < (s.expectedSeqNum : Int) →
    ∃ t, exec (.rx B) s = .next t ∧ deliveredPayloads t.out.actions = [] ∧
      t.out.actions = [.transmit s.cfg.entityId true (encodeFrame .ack s.lastAckNum [])] ∧
      t.expectedSeqNum = s.expectedSeqNum ∧ t.lastAckNum = s.lastAckNum

/-- 42_receiver R205: before any packet has been accepted, every DATA frame that is rejected is answered with the sentinel ACK,
whose bytes are `00 00 FF FF FF FF 00 00 00 00 00 00` (D5, log 15). Rejected is: corrupt, by its sum or because `decode`
fails, with a header cut short too; or carrying a number that is not the one expected. Both as an RX of any bytes with the tag
of DATA and as a packet with a complete header. -/
def Obligations.SentinelAckOnTheWire : Prop :=
  ∀ s : State, s.lastAckNum = -1 →
    let sentinel := [Action.transmit s.cfg.entityId true [0, 0, 0xFF, 0xFF, 0xFF, 0xFF, 0, 0, 0, 0, 0, 0]]
    (∀ B : Bytes, s.frameAdmitted B = true → frameTag B = some 128 →
      (verify B = false ∨ (∃ tag, decodeFrame B = .fail tag) ∨
        ∃ p, decodeFrame B = .packet p ∧ p.number ≠ (s.expectedSeqNum : Int)) →
      ∃ t, exec (.rx B) s = .next t ∧ t.out.actions = sentinel) ∧
    (∀ (n : BitVec 32) (c : BitVec 16) (l : BitVec 32) (body : Bytes), body.length ≤ s.cfg.maxPayload →
      (verify (packetBytes .data n c l body) = false ∨ body.length < l.toNat ∨ n.toInt ≠ (s.expectedSeqNum : Int)) →
      ∃ t, exec (.pktData n c l body) s = .next t ∧ t.out.actions = sentinel)

-- ==================== RX ====================

/-- 43_entity R222, R223 (log 11): an RX of a frame with a complete header and a known tag is its packet's operation. -/
def Obligations.RxRoutesByTag : Prop :=
  ∀ (s : State) (n : BitVec 32) (c : BitVec 16) (l : BitVec 32) (body : Bytes),
    exec (.rx (packetBytes .ack n c l body)) s = exec (.pktAck n c l body) s ∧
    exec (.rx (packetBytes .data n c l body)) s = exec (.pktData n c l body) s

/-- 43_entity R224, R225, R226: a frame whose `decode` fails is routed by the tag that can be read, as corrupt; an unknown kind
and an unreadable header are dropped, with no state change and no action. -/
def Obligations.MalformedFramesAreAbsorbed : Prop :=
  ∀ (s : State) (B : Bytes), s.frameAdmitted B = true →
    let endsIn := fun (k : RxClass) (actions : List Action) =>
      exec (.rx B) s = .next { s with out := ⟨actions, some k, none⟩, trace := s.trace ++ [⟨.rx B, actions⟩] }
    (B.length < 2 → endsIn .dropUnreadable []) ∧
    (2 ≤ B.length → u16 B 0 ≠ 0 → u16 B 0 ≠ 128 → endsIn .dropUnknownKind []) ∧
    (2 ≤ B.length → u16 B 0 = 0 → (∃ t, decodeFrame B = .fail t) → endsIn .ackCorrupt []) ∧
    (2 ≤ B.length → u16 B 0 = 128 → (∃ t, decodeFrame B = .fail t) →
      endsIn .dataCorrupt [.transmit s.cfg.entityId true (encodeFrame .ack s.lastAckNum [])])

/-- 60_exceptions R262, R263 and 43_entity R227: every RX that the interface admits completes, in every state, and ends in
exactly the class of R262's table; each class changes only the state that the table says, and emits only the actions. -/
def Obligations.EveryRxEndsInItsClass : Prop :=
  ∀ (s : State) (B : Bytes), s.frameAdmitted B = true →
    ∃ t, exec (.rx B) s = .next t ∧ t.out.rxClass = some (rxClassOf s B) ∧
      t.trace = s.trace ++ [⟨.rx B, t.out.actions⟩] ∧ t.inbox = s.inbox ∧ t.cfg = s.cfg ∧
      (rxClassOf s B ≠ .ackAccept →
        t.windowBase = s.windowBase ∧ t.nextSeqNum = s.nextSeqNum ∧ t.unackedBuffer = s.unackedBuffer ∧
        t.pendingQueue = s.pendingQueue ∧ t.timerRunning = s.timerRunning) ∧
      (rxClassOf s B ≠ .dataAccept → t.expectedSeqNum = s.expectedSeqNum ∧ t.lastAckNum = s.lastAckNum) ∧
      (rxClassOf s B ∈ [RxClass.dropUnreadable, .dropUnknownKind, .ackCorrupt, .ackStale, .ackAhead] →
        t.out.actions = []) ∧
      (rxClassOf s B ∈ [RxClass.dataCorrupt, .dataUnexpected] →
        t.out.actions = [.transmit s.cfg.entityId true (encodeFrame .ack s.lastAckNum [])]) ∧
      (rxClassOf s B = .dataAccept →
        ∃ p : Bytes, t.out.actions = [.deliver s.cfg.entityId p,
          .transmit s.cfg.entityId true (encodeFrame .ack t.lastAckNum [])]) ∧
      (rxClassOf s B = .ackAccept → s.timerRunning = true →
        ∃ rest, t.out.actions = .stopTimer s.cfg.entityId :: rest ∧ .stopTimer s.cfg.entityId ∉ rest ∧
          deliveredPayloads rest = [] ∧ ackNumbersOf rest = [])

-- ==================== whole-machine rules ====================

/-- 10_state R23, R24, R31, R40 at reset, for every configuration. -/
def Obligations.InvariantsHoldAtReset : Prop := ∀ c : Config, Inv (State.resetWith c)

/-- 41_sender R180, 10_state R31, R40: every step keeps the sender's and the receiver's invariants. -/
def Obligations.StepKeepsTheInvariants : Prop := ∀ s t : State, Inv s → step s = .next t → Inv t

/-- 60_exceptions R260, 20_memory R66 (log 13): from a state that meets the invariants every operation completes, and so does
every step, whatever waits. And in no state at all is an operation or a step refused: that clause is the model's choice, for
R260 has refusals, the stimuli that are not admitted. A SUBMIT or a frame that is not admitted answers the unchanged state and
is not taken by a step (log 5); a waiting record that decodes to no operation is passed over (log 18). -/
def Obligations.NothingFaults : Prop :=
  (∀ s : State, Inv s → (∀ i : Instr, ∃ t, exec i s = .next t) ∧ ∃ t, step s = .next t) ∧
  (∀ (s : State) (r : Refusal), (∀ i : Instr, exec i s ≠ .refused r) ∧ step s ≠ .refused r)

/-- The trace rules hold at reset, for every configuration: nothing has happened. -/
def Obligations.TraceRulesHoldAtReset : Prop := ∀ c : Config, Good (State.resetWith c)

/-- 41_sender R182, 10_state R28: every step keeps the timer discipline, and `timer_running` mirrors it. -/
def Obligations.StepKeepsTheTimerDiscipline : Prop :=
  ∀ s t : State, TimerDiscipline s → step s = .next t → TimerDiscipline t

/-- 42_receiver R206: every step keeps in-order, exactly-once delivery. -/
def Obligations.StepKeepsInOrderDelivery : Prop :=
  ∀ s t : State, InOrderDelivery s → step s = .next t → InOrderDelivery t

/-- 42_receiver R209: every step keeps the order of the ACK numbers. -/
def Obligations.StepKeepsAckOrder : Prop :=
  ∀ s t : State, Inv s → AckOrder s → step s = .next t → AckOrder t

/-- 41_sender R168 (b), R174, 10_state R22: every step keeps "framed once each, in the order of submission". -/
def Obligations.StepKeepsSubmissionOrder : Prop :=
  ∀ s t : State, Inv s → SubmissionOrder s → step s = .next t → SubmissionOrder t

/-- 30_encoding R110, R104, R105, 43_entity R243: every step emits only the entity's own actions: frames of the two shapes,
its own `ENTITY_ID` and `timer_interval`, `is_ack` by kind. -/
def Obligations.StepEmitsOnlyOwnActions : Prop :=
  ∀ s t : State, Inv s → OwnTrace s → step s = .next t → OwnTrace t

/-- 43_entity R241: every frame the entity transmits passes `verify`. -/
def Obligations.OwnFramesVerify : Prop :=
  ∀ (c : Config) (e : EntityId) (isAck : Bool) (f : Bytes), OwnAction c (.transmit e isAck f) →
    verify f = true ∧ isAckFrame f = isAck ∧ f.length ≤ 12 + c.maxPayload

/-- 41_sender R182, the counts per step: SUBMIT emits at most one START; an accepted ACK exactly one STOP and at most one
START; TIMEOUT exactly one START; every other step neither. -/
def Obligations.TimerActionsPerStep : Prop :=
  ∀ s : State, Inv s →
    (∀ p t, s.submitAdmitted p = true → exec (.submit p) s = .next t →
      (timerActions t.out.actions).count .start ≤ 1) ∧
    (∀ t, exec .timeout s = .next t → timerActions t.out.actions = [.start]) ∧
    (∀ B t, s.frameAdmitted B = true → exec (.rx B) s = .next t →
      if rxClassOf s B = .ackAccept then
        (timerActions t.out.actions).count .stop = 1 ∧ (timerActions t.out.actions).count .start ≤ 1
      else timerActions t.out.actions = [])

/-- 43_entity R240: a step emits at most `2 + window_size` actions. -/
def Obligations.ActionsPerStepAreBounded : Prop :=
  ∀ (s t : State) (i : Instr), Inv s → isStepOp i = true → s.admits i = true → exec i s = .next t →
    t.out.actions.length ≤ 2 + s.cfg.windowSize

/-- 00_scope R9, 10_state R26, R27, 20_memory R79: no operation and no step writes a parameter. -/
def Obligations.ParametersNeverChange : Prop :=
  (∀ (i : Instr) (s t : State), exec i s = .next t → t.cfg = s.cfg) ∧
  (∀ s t : State, step s = .next t → t.cfg = s.cfg)

/-- 10_state R21, R22, R29: no operation decreases a sequencer register, and only those named write them: `window_base` an ACK
or an RX, `next_seq_num` also a SUBMIT, `expected_seq_num` a DATA or an RX. -/
def Obligations.SequencersNeverDecrease : Prop :=
  ∀ (i : Instr) (s t : State), exec i s = .next t →
    s.windowBase ≤ t.windowBase ∧ s.nextSeqNum ≤ t.nextSeqNum ∧ s.expectedSeqNum ≤ t.expectedSeqNum ∧
    t.expectedSeqNum ≤ s.expectedSeqNum + 1 ∧
    (t.windowBase ≠ s.windowBase → (∃ n c l b, i = .pktAck n c l b) ∨ ∃ B, i = .rx B) ∧
    (t.nextSeqNum ≠ s.nextSeqNum → (∃ n c l b, i = .pktAck n c l b) ∨ (∃ B, i = .rx B) ∨ ∃ p, i = .submit p) ∧
    (t.expectedSeqNum ≠ s.expectedSeqNum → (∃ n c l b, i = .pktData n c l b) ∨ ∃ B, i = .rx B)

/-- 10_state R39: the sender's and the receiver's state are disjoint. A sender operation does the same whatever the receiver
holds, and leaves it; a receiver operation does the same whatever the sender holds, and leaves it. -/
def Obligations.SenderAndReceiverAreDisjoint : Prop :=
  (∀ (s : State) (expected : Nat) (lastAck : Int) (i : Instr),
    (i = .timeout ∨ (∃ p, i = .submit p) ∨ ∃ n c l b, i = .pktAck n c l b) →
    exec i (withReceiver s expected lastAck) = mapNext (fun t => withReceiver t expected lastAck) (exec i s) ∧
    ∀ t, exec i s = .next t → t.expectedSeqNum = s.expectedSeqNum ∧ t.lastAckNum = s.lastAckNum) ∧
  (∀ (s u : State) (n : BitVec 32) (c : BitVec 16) (l : BitVec 32) (b : Bytes),
    exec (.pktData n c l b) (withSenderOf s u) = mapNext (fun t => withSenderOf t u) (exec (.pktData n c l b) s) ∧
    ∀ t, exec (.pktData n c l b) s = .next t → t = withSenderOf t s)

/-- 20_memory R61, R63, R65 (log 13): every operation keeps the canonical form of `UB`, from every state. -/
def Obligations.StepKeepsBufferCanonical : Prop :=
  ∀ (i : Instr) (s t : State), s.unackedBuffer.wf → exec i s = .next t → t.unackedBuffer.wf

/-- 20_memory R62: two keys of a window never share a slot. -/
def Obligations.WindowKeysNeverShareASlot : Prop :=
  ∀ s : State, Inv s → ∀ n m : Nat, s.windowBase ≤ n → n < s.nextSeqNum → s.windowBase ≤ m → m < s.nextSeqNum →
    slotOf s.cfg.windowSize n = slotOf s.cfg.windowSize m → n = m

/-- 60_exceptions R277 (log 17): the reference mux takes the waiting stimuli in one of the orders that a model allows: it loses
none and invents none; by the operations that their records decode to, no SUBMIT stands before a TIMEOUT or an RX and no
TIMEOUT before an RX; and the stimuli of one kind keep the order in which they came. -/
def Obligations.ReferenceMuxIsOneOrder : Prop :=
  ∀ s : State,
    let arranged := s.arbitrateReference.inbox
    arranged.Perm s.inbox ∧
    arranged.Pairwise (fun v w => ∀ i j, decode v.record = .ok i → decode w.record = .ok j →
      ((∃ p, i = .submit p) → j ≠ .timeout ∧ isReceiveOp j = false) ∧ (i = .timeout → isReceiveOp j = false)) ∧
    (∀ kind : Waiting → Bool,
      ((∀ w, kind w = true → ∃ i, decode w.record = .ok i ∧ isReceiveOp i = true) ∨
        (∀ w, kind w = true → decode w.record = .ok .timeout) ∨
        (∀ w, kind w = true → ∃ p, decode w.record = .ok (.submit p))) →
      arranged.filter kind = s.inbox.filter kind)

/-- 10_state R34, R35, 60_exceptions R262: what the status port reads in every state: the registers, the number of waiting
payloads, and each predicate by its definition (without `corrupt`, log 19). And the class it reads after a step: after an
admitted RX the number that R262's table gives the class of the frame; after an admitted SUBMIT or a TIMEOUT none. -/
def Obligations.StatusPortReportsTheState : Prop :=
  ∀ s : State,
    (s.statusView.windowBase = s.windowBase ∧ s.statusView.nextSeqNum = s.nextSeqNum ∧
      s.statusView.expectedSeqNum = s.expectedSeqNum ∧ s.statusView.lastAckNum = s.lastAckNum ∧
      s.statusView.timerRunning = s.timerRunning ∧ s.statusView.pendingCount = s.pendingQueue.length) ∧
    (s.statusView.windowEmpty = true ↔ s.windowBase = s.nextSeqNum) ∧
    (s.statusView.hasRoom = true ↔
      s.nextSeqNum < s.windowBase + s.cfg.windowSize ∧ s.nextSeqNum ≤ 2147483647) ∧
    (s.statusView.windowFull = true ↔
      ¬ (s.nextSeqNum < s.windowBase + s.cfg.windowSize ∧ s.nextSeqNum ≤ 2147483647)) ∧
    (s.statusView.pendingNonempty = true ↔ s.pendingQueue ≠ []) ∧
    (s.statusView.seqExhausted = true ↔ s.nextSeqNum = 2147483648) ∧
    (∀ (B : Bytes) (t : State), s.frameAdmitted B = true → exec (.rx B) s = .next t →
      t.statusView.rxClass = some
        (if B.length < 2 then 8
        else if u16 B 0 ≠ 0 ∧ u16 B 0 ≠ 128 then 7
        else if u16 B 0 = 0 then
          if corrupt B = true then 3
          else if s32 (u32 B 2) < (s.windowBase : Int) then 1
          else if s32 (u32 B 2) ≥ (s.nextSeqNum : Int) then 2
          else 0
        else
          if corrupt B = true then 6
          else if s32 (u32 B 2) ≠ (s.expectedSeqNum : Int) then 5
          else 4)) ∧
    (∀ (p : Bytes) (t : State), s.submitAdmitted p = true → exec (.submit p) s = .next t →
      t.statusView.rxClass = none) ∧
    (∀ t : State, exec .timeout s = .next t → t.statusView.rxClass = none)
end

