-- ==== Sys2Proof/Laws/Encoding.lean ====
section
/-! SUPPORT. The laws of packed records: the bytes of a number, and a packed record read back. -/

namespace Sys2Proof

@[simp] theorem leBytes_length (k v : Nat) : (leBytes k v).length = k := by
  induction k generalizing v with
  | zero => rfl
  | succ k ih => simp [leBytes, ih]

theorem leNat_lt (b : Bytes) : leNat b < 256 ^ b.length := by
  induction b with
  | nil => simp [leNat]
  | cons x b ih =>
    have := x.isLt
    simp only [leNat, List.length_cons, pow_succ]
    omega

theorem leNat_leBytes (k v : Nat) : leNat (leBytes k v) = v % 256 ^ k := by
  induction k generalizing v with
  | zero => simp [leBytes, leNat, Nat.mod_one]
  | succ k ih =>
    have h : v % 256 ^ (k + 1) = v % 256 + 256 * (v / 256 % 256 ^ k) := by
      rw [pow_succ, mul_comm, Nat.mod_mul]
    simp [leBytes, leNat, ih, h]

theorem leBytes_leNat (b : Bytes) : leBytes b.length (leNat b) = b := by
  induction b with
  | nil => rfl
  | cons x b ih =>
    have hx := x.isLt
    have h1 : (x.toNat + 256 * leNat b) / 256 = leNat b := by omega
    have h2 : BitVec.ofNat 8 (x.toNat + 256 * leNat b) = x := by
      apply BitVec.eq_of_toNat_eq
      simp only [BitVec.toNat_ofNat]; omega
    simp [leBytes, leNat, h1, h2, ih]

@[simp] theorem packBytes_length (hbits hbytes header : Nat) (b : Bytes) :
    (packBytes hbits hbytes header b).length = hbytes + b.length := by
  simp [packBytes]

/-- The number that a packed record's bits spell. -/
theorem leNat_packBytes {hbits hbytes header : Nat} (b : Bytes) (h : header < 2 ^ hbits)
    (hs : 2 ^ hbits ≤ 256 ^ hbytes) :
    leNat (packBytes hbits hbytes header b) = header + 2 ^ hbits * leNat b := by
  unfold packBytes
  rw [leNat_leBytes, Nat.mod_eq_of_lt]
  have hb := leNat_lt b
  calc header + 2 ^ hbits * leNat b < 2 ^ hbits * (leNat b + 1) := by rw [mul_add, mul_one]; omega
    _ ≤ 2 ^ hbits * 256 ^ b.length := Nat.mul_le_mul_left _ hb
    _ ≤ 256 ^ hbytes * 256 ^ b.length := Nat.mul_le_mul_right _ hs
    _ = 256 ^ (hbytes + b.length) := (pow_add _ _ _).symm

/-- Unpacking gives back the bytes that were packed. -/
theorem unpackBytes_packBytes {hbits hbytes header : Nat} (b : Bytes) (h : header < 2 ^ hbits)
    (hs : 2 ^ hbits ≤ 256 ^ hbytes) :
    unpackBytes hbits hbytes b.length (packBytes hbits hbytes header b) = .ok b := by
  unfold unpackBytes
  rw [leNat_packBytes b h hs, packBytes_length]
  have hd : (header + 2 ^ hbits * leNat b) / 2 ^ hbits = leNat b := by
    rw [Nat.add_mul_div_left _ _ (by positivity), Nat.div_eq_of_lt h, zero_add]
  simp [hd, leNat_lt, leBytes_leNat]

/-- A field of the header is read from the header alone. -/
theorem bitsOf_header {hbits header lo n : Nat} (x : Nat) (hlo : lo + n ≤ hbits) :
    bitsOf (header + 2 ^ hbits * x) lo n = bitsOf header lo n := by
  unfold bitsOf
  obtain ⟨d, rfl⟩ := Nat.exists_eq_add_of_le hlo
  have h1 : header + 2 ^ (lo + n + d) * x = header + 2 ^ lo * (2 ^ n * (2 ^ d * x)) := by
    rw [pow_add, pow_add]; ring
  rw [h1, Nat.add_mul_div_left _ _ (by positivity), Nat.add_mul_mod_self_left]

theorem bitsOf_lt (v lo n : Nat) : bitsOf v lo n < 2 ^ n := Nat.mod_lt _ (by positivity)

/-- What an unpacked byte sequence says of its length. -/
theorem length_of_unpackBytes {hbits hbytes len : Nat} {bytes b : Bytes}
    (h : unpackBytes hbits hbytes len bytes = .ok b) : b.length = len := by
  unfold unpackBytes at h
  split at h
  · cases h
  · split at h
    · cases h; simp
    · cases h

end Sys2Proof
end

