-- ==== Sys2Proof/Laws/Framer.lean ====
section
/-! SUPPORT. The laws of the checksum arithmetic and of the frame layout (40_framer R131 to R133, 30_encoding R98). -/

namespace Sys2Proof.Machine

/-- Everything a fold does, given enough passes: a 16-bit result, congruent modulo 65535, 0 for 0 only. -/
theorem foldPasses_spec (fuel S : Nat) (h : S ≤ fuel) :
    foldPasses fuel S ≤ 65535 ∧ foldPasses fuel S % 65535 = S % 65535 ∧ (foldPasses fuel S = 0 ↔ S = 0) := by
  induction fuel generalizing S with
  | zero =>
    have : S = 0 := by omega
    subst this; simp [foldPasses]
  | succ fuel ih =>
    unfold foldPasses
    split
    · exact ⟨‹_›, rfl, Iff.rfl⟩
    · obtain ⟨h1, h2, h3⟩ := ih (S % 65536 + S / 65536) (by omega)
      exact ⟨h1, by rw [h2]; omega, by rw [h3]; omega⟩

theorem fold16_le (S : Nat) : fold16 S ≤ 65535 := (foldPasses_spec S S le_rfl).1

theorem fold16_mod (S : Nat) : fold16 S % 65535 = S % 65535 := (foldPasses_spec S S le_rfl).2.1

theorem fold16_eq_zero (S : Nat) : fold16 S = 0 ↔ S = 0 := (foldPasses_spec S S le_rfl).2.2

/-- The folded value is all ones exactly for a positive multiple of 65535. -/
theorem fold16_eq_ones (S : Nat) : fold16 S = 65535 ↔ 0 < S ∧ S % 65535 = 0 := by
  have h1 := fold16_le S
  have h2 := fold16_mod S
  have h3 := fold16_eq_zero S
  omega

theorem verify_iff (B : Bytes) : verify B = true ↔ 0 < (words B).sum ∧ (words B).sum % 65535 = 0 := by
  simp [verify, ocsum, fold16_eq_ones]

theorem ocsum_le (B : Bytes) : ocsum B ≤ 65535 := fold16_le _

/-- Words do not straddle an even cut. -/
theorem words_append {a : Bytes} (h : a.length % 2 = 0) (b : Bytes) : words (a ++ b) = words a ++ words b := by
  induction a using words.induct with
  | case1 => rfl
  | case2 x => simp at h
  | case3 x y rest ih =>
    simp only [List.length_cons] at h
    simp [words, ih (by omega)]

@[simp] theorem be16_length (v : Nat) : (be16 v).length = 2 := rfl
@[simp] theorem be32_length (v : Nat) : (be32 v).length = 4 := rfl

theorem words_be16 {v : Nat} (h : v < 65536) : words (be16 v) = [v] := by
  simp [be16, words]; omega

theorem words_be32 {v : Nat} (h : v < 4294967296) : words (be32 v) = [v / 65536, v % 65536] := by
  simp [be32, words]; omega

@[simp] theorem layout_length (t n c l : Nat) (b : Bytes) : (layout t n c l b).length = 12 + b.length := by
  simp [layout]; omega

/-- The checksum is a word of its own: it adds exactly itself to the word sum (20_memory R71). -/
theorem words_layout_sum {t n c l : Nat} (b : Bytes) (ht : t < 65536) (hn : n < 4294967296) (hc : c < 65536)
    (hl : l < 4294967296) :
    (words (layout t n c l b)).sum = t + (n / 65536 + n % 65536) + c + (l / 65536 + l % 65536) + (words b).sum := by
  unfold layout
  rw [words_append (by simp), words_append (by simp), words_append (by simp), words_append (by simp),
    words_be16 ht, words_be32 hn, words_be16 hc, words_be32 hl]
  simp; omega

theorem layout_u16_kind {t : Nat} (n c l : Nat) (b : Bytes) (h : t < 65536) : u16 (layout t n c l b) 0 = t := by
  simp [layout, be16, be32, u16, byteAt]; omega

theorem layout_u32_number (t : Nat) {n : Nat} (c l : Nat) (b : Bytes) (h : n < 4294967296) :
    u32 (layout t n c l b) 2 = n := by
  simp [layout, be16, be32, u32, byteAt]; omega

theorem layout_u16_checksum (t n : Nat) {c : Nat} (l : Nat) (b : Bytes) (h : c < 65536) :
    u16 (layout t n c l b) 6 = c := by
  simp [layout, be16, be32, u16, byteAt]; omega

theorem layout_u32_length (t n c : Nat) {l : Nat} (b : Bytes) (h : l < 4294967296) :
    u32 (layout t n c l b) 8 = l := by
  simp [layout, be16, be32, u32, byteAt]; omega

@[simp] theorem layout_drop (t n c l : Nat) (b : Bytes) : (layout t n c l b).drop 12 = b := by
  simp [layout, be16, be32]

theorem kindTag_lt (k : Kind) : kindTag k < 65536 := by cases k <;> decide

@[simp] theorem kindOfTag_kindTag (k : Kind) : kindOfTag (kindTag k) = some k := by cases k <;> rfl

theorem t32_lt {n : Int} (h : inNumberRange n = true) : t32 n < 4294967296 := by
  simp only [inNumberRange, decide_eq_true_eq] at h
  unfold t32; split <;> omega

/-- `s32` undoes `t32` on the range of the number field (00_scope R14). -/
theorem s32_t32 {n : Int} (h : inNumberRange n = true) : s32 (t32 n) = n := by
  simp only [inNumberRange, decide_eq_true_eq] at h
  unfold s32 t32
  split <;> split <;> omega

theorem inNumberRange_s32 {v : Nat} (h : v < 4294967296) : inNumberRange (s32 v) = true := by
  simp only [inNumberRange, decide_eq_true_eq]
  unfold s32; split <;> omega

theorem u16_lt (B : Bytes) (i : Nat) : u16 B i < 65536 := by
  have h1 := (B.getD i 0).isLt
  have h2 := (B.getD (i + 1) 0).isLt
  simp only [u16, byteAt]; omega

theorem u32_lt (B : Bytes) (i : Nat) : u32 B i < 4294967296 := by
  have h1 := (B.getD i 0).isLt
  have h2 := (B.getD (i + 1) 0).isLt
  have h3 := (B.getD (i + 2) 0).isLt
  have h4 := (B.getD (i + 3) 0).isLt
  simp only [u32, byteAt]; omega

/-- What `decode` makes of a laid-out frame whose header is in range. -/
theorem decodeFrame_layout {t n c l : Nat} (b : Bytes) (ht : t < 65536) (hn : n < 4294967296) (hc : c < 65536)
    (hl : l < 4294967296) :
    decodeFrame (layout t n c l b) =
      if b.length < l then .fail (some t)
      else .packet { kind := t, number := s32 n, checksum := c, payloadLength := l, payload := b.take l } := by
  unfold decodeFrame
  rw [layout_u16_kind _ _ _ _ ht, layout_u32_number _ _ _ _ hn, layout_u16_checksum _ _ _ _ hc,
    layout_u32_length _ _ _ _ hl, layout_length, layout_drop]
  have h2 : ¬ 12 + b.length < 2 := by omega
  by_cases h : b.length < l <;> simp [h, h2]

end Sys2Proof.Machine
end

