-- ==== Sys2Proof/Laws/Memory.lean ====
section
/-! SUPPORT. The laws of the unacked buffer: every operation keeps its canonical form, and what a read sees after each. -/

namespace Sys2Proof.Machine

@[simp] theorem Memory.keys_nil : Memory.keys [] = [] := rfl
@[simp] theorem Memory.keys_cons (k : Nat) (f : Bytes) (m : Memory) : Memory.keys ((k, f) :: m) = k :: Memory.keys m := rfl
@[simp] theorem Memory.read_nil (n : Nat) : Memory.read [] n = none := rfl

theorem Memory.read_eq_none_of_not_mem {m : Memory} {n : Nat} (h : n ∉ m.keys) : m.read n = none := by
  induction m with
  | nil => rfl
  | cons e m ih =>
    obtain ⟨k, f⟩ := e
    simp only [keys_cons, List.mem_cons, not_or] at h
    simp [read, Ne.symm h.1, ih h.2]

theorem Memory.read_isSome_iff {m : Memory} {n : Nat} : (m.read n).isSome ↔ n ∈ m.keys := by
  induction m with
  | nil => simp
  | cons e m ih =>
    obtain ⟨k, f⟩ := e
    by_cases hk : k = n
    · simp [read, hk]
    · simp [read, hk, ih, Ne.symm hk]

/-- A read after a write sees the written frame at its key and what was there at any other key. -/
theorem Memory.read_write (m : Memory) (k n : Nat) (f : Bytes) :
    (m.write k f).read n = if n = k then some f else m.read n := by
  induction m with
  | nil => by_cases h : k = n <;> simp [write, read, h, eq_comm]
  | cons e m ih =>
    obtain ⟨j, g⟩ := e
    unfold write
    split
    · by_cases h : k = n <;> simp [read, h, eq_comm]
    · split
      · rename_i hkj
        subst hkj
        by_cases h : k = n <;> simp [read, h, eq_comm]
      · by_cases hj : j = n
        · have : ¬ n = k := by omega
          simp [read, hj, this]
        · simp [read, hj, ih]

theorem Memory.mem_keys_write {m : Memory} {k n : Nat} {f : Bytes} : n ∈ (m.write k f).keys ↔ n = k ∨ n ∈ m.keys := by
  rw [← read_isSome_iff, read_write, ← read_isSome_iff]
  by_cases h : n = k <;> simp [h]

theorem Memory.wf_write {m : Memory} (h : m.wf) (k : Nat) (f : Bytes) : (m.write k f).wf := by
  induction m with
  | nil => simp [write, wf]
  | cons e m ih =>
    obtain ⟨j, g⟩ := e
    simp only [wf, keys_cons, List.pairwise_cons] at h
    unfold write
    split
    · rename_i hkj
      simp only [wf, keys_cons, List.pairwise_cons, List.mem_cons]
      refine ⟨?_, h.1, h.2⟩
      rintro a (rfl | ha)
      · exact hkj
      · exact lt_trans hkj (h.1 a ha)
    · split
      · rename_i hkj
        simpa [wf, hkj] using h
      · simp only [wf, keys_cons, List.pairwise_cons]
        refine ⟨fun a ha => ?_, ih h.2⟩
        rcases mem_keys_write.1 ha with rfl | ha
        · omega
        · exact h.1 a ha

/-- A write at a key above every other goes to the end of the list. -/
theorem Memory.keys_write_append {m : Memory} {k : Nat} (f : Bytes) (h : ∀ j ∈ m.keys, j < k) :
    (m.write k f).keys = m.keys ++ [k] := by
  induction m with
  | nil => rfl
  | cons e m ih =>
    obtain ⟨j, g⟩ := e
    simp only [keys_cons, List.mem_cons, forall_eq_or_imp] at h
    simp [write, show ¬ k < j by omega, show ¬ k = j by omega, ih h.2]

theorem Memory.keys_evictBelow (m : Memory) (b : Nat) : (m.evictBelow b).keys = m.keys.filter (fun n => decide (b ≤ n)) := by
  simp only [evictBelow, keys, List.filter_map]
  rfl

theorem Memory.wf_evictBelow {m : Memory} (h : m.wf) (b : Nat) : (m.evictBelow b).wf := by
  unfold wf
  rw [keys_evictBelow]
  exact List.Pairwise.filter _ h

/-- A read after an eviction sees no key below the base and every other key as before. -/
theorem Memory.read_evictBelow (m : Memory) (b n : Nat) : (m.evictBelow b).read n = if n < b then none else m.read n := by
  induction m with
  | nil => simp [evictBelow]
  | cons e m ih =>
    obtain ⟨j, g⟩ := e
    simp only [evictBelow] at ih ⊢
    by_cases hj : b ≤ j
    · by_cases hn : j = n
      · subst hn; simp [hj, read, show ¬ j < b by omega]
      · simp [hj, read, hn, ih]
    · by_cases hn : j = n
      · subst hn; simp [hj, ih, show j < b by omega]
      · simp [hj, read, hn, ih]

theorem Memory.wf_nil : Memory.wf [] := List.Pairwise.nil

/-- The part of a run of consecutive numbers at or above a number inside it. -/
theorem filter_range' (a b n : Nat) (h : a ≤ b) (hb : b ≤ a + n) :
    (List.range' a n).filter (fun k => decide (b ≤ k)) = List.range' b (a + n - b) := by
  induction n generalizing a with
  | zero =>
    have : b = a := by omega
    subst this; simp
  | succ n ih =>
    rw [List.range'_succ]
    by_cases hab : b = a
    · subst hab
      rw [List.filter_eq_self.2, ← List.range'_succ]
      · congr 1; omega
      · intro k hk
        simp only [List.mem_cons, List.mem_range'_1] at hk
        simp only [decide_eq_true_eq]; omega
    · rw [List.filter_cons_of_neg (by simp; omega), ih (a + 1) (by omega) (by omega)]
      congr 1; omega

end Sys2Proof.Machine
end

