-- ==== Sys2Proof/Laws/State.lean ====
section
/-! SUPPORT. One lemma per field per update of State, so that no proof unfolds a record update. -/

namespace Sys2Proof.Machine

variable (s : State)

section beginStep
@[simp] theorem State.beginStep_cfg : s.beginStep.cfg = s.cfg := rfl
@[simp] theorem State.beginStep_windowBase : s.beginStep.windowBase = s.windowBase := rfl
@[simp] theorem State.beginStep_nextSeqNum : s.beginStep.nextSeqNum = s.nextSeqNum := rfl
@[simp] theorem State.beginStep_unackedBuffer : s.beginStep.unackedBuffer = s.unackedBuffer := rfl
@[simp] theorem State.beginStep_pendingQueue : s.beginStep.pendingQueue = s.pendingQueue := rfl
@[simp] theorem State.beginStep_timerRunning : s.beginStep.timerRunning = s.timerRunning := rfl
@[simp] theorem State.beginStep_expectedSeqNum : s.beginStep.expectedSeqNum = s.expectedSeqNum := rfl
@[simp] theorem State.beginStep_lastAckNum : s.beginStep.lastAckNum = s.lastAckNum := rfl
@[simp] theorem State.beginStep_out : s.beginStep.out = Output.empty := rfl
@[simp] theorem State.beginStep_trace : s.beginStep.trace = s.trace := rfl
@[simp] theorem State.beginStep_inbox : s.beginStep.inbox = s.inbox := rfl
end beginStep

section endStep
variable (st : Stimulus)
@[simp] theorem State.endStep_cfg : (s.endStep st).cfg = s.cfg := rfl
@[simp] theorem State.endStep_windowBase : (s.endStep st).windowBase = s.windowBase := rfl
@[simp] theorem State.endStep_nextSeqNum : (s.endStep st).nextSeqNum = s.nextSeqNum := rfl
@[simp] theorem State.endStep_unackedBuffer : (s.endStep st).unackedBuffer = s.unackedBuffer := rfl
@[simp] theorem State.endStep_pendingQueue : (s.endStep st).pendingQueue = s.pendingQueue := rfl
@[simp] theorem State.endStep_timerRunning : (s.endStep st).timerRunning = s.timerRunning := rfl
@[simp] theorem State.endStep_expectedSeqNum : (s.endStep st).expectedSeqNum = s.expectedSeqNum := rfl
@[simp] theorem State.endStep_lastAckNum : (s.endStep st).lastAckNum = s.lastAckNum := rfl
@[simp] theorem State.endStep_out : (s.endStep st).out = s.out := rfl
@[simp] theorem State.endStep_trace : (s.endStep st).trace = s.trace ++ [⟨st, s.out.actions⟩] := rfl
@[simp] theorem State.endStep_inbox : (s.endStep st).inbox = s.inbox := rfl
end endStep

section emit
variable (a : Action)
@[simp] theorem State.emit_cfg : (s.emit a).cfg = s.cfg := rfl
@[simp] theorem State.emit_windowBase : (s.emit a).windowBase = s.windowBase := rfl
@[simp] theorem State.emit_nextSeqNum : (s.emit a).nextSeqNum = s.nextSeqNum := rfl
@[simp] theorem State.emit_unackedBuffer : (s.emit a).unackedBuffer = s.unackedBuffer := rfl
@[simp] theorem State.emit_pendingQueue : (s.emit a).pendingQueue = s.pendingQueue := rfl
@[simp] theorem State.emit_timerRunning : (s.emit a).timerRunning = s.timerRunning := rfl
@[simp] theorem State.emit_expectedSeqNum : (s.emit a).expectedSeqNum = s.expectedSeqNum := rfl
@[simp] theorem State.emit_lastAckNum : (s.emit a).lastAckNum = s.lastAckNum := rfl
@[simp] theorem State.emit_actions : (s.emit a).out.actions = s.out.actions ++ [a] := rfl
@[simp] theorem State.emit_rxClass : (s.emit a).out.rxClass = s.out.rxClass := rfl
@[simp] theorem State.emit_framer : (s.emit a).out.framer = s.out.framer := rfl
@[simp] theorem State.emit_trace : (s.emit a).trace = s.trace := rfl
@[simp] theorem State.emit_inbox : (s.emit a).inbox = s.inbox := rfl
end emit

section classify
variable (c : RxClass)
@[simp] theorem State.classify_cfg : (s.classify c).cfg = s.cfg := rfl
@[simp] theorem State.classify_windowBase : (s.classify c).windowBase = s.windowBase := rfl
@[simp] theorem State.classify_nextSeqNum : (s.classify c).nextSeqNum = s.nextSeqNum := rfl
@[simp] theorem State.classify_unackedBuffer : (s.classify c).unackedBuffer = s.unackedBuffer := rfl
@[simp] theorem State.classify_pendingQueue : (s.classify c).pendingQueue = s.pendingQueue := rfl
@[simp] theorem State.classify_timerRunning : (s.classify c).timerRunning = s.timerRunning := rfl
@[simp] theorem State.classify_expectedSeqNum : (s.classify c).expectedSeqNum = s.expectedSeqNum := rfl
@[simp] theorem State.classify_lastAckNum : (s.classify c).lastAckNum = s.lastAckNum := rfl
@[simp] theorem State.classify_actions : (s.classify c).out.actions = s.out.actions := rfl
@[simp] theorem State.classify_rxClass : (s.classify c).out.rxClass = some c := rfl
@[simp] theorem State.classify_framer : (s.classify c).out.framer = s.out.framer := rfl
@[simp] theorem State.classify_trace : (s.classify c).trace = s.trace := rfl
@[simp] theorem State.classify_inbox : (s.classify c).inbox = s.inbox := rfl
end classify

section answer
variable (r : FramerResult)
@[simp] theorem State.answer_cfg : (s.answer r).cfg = s.cfg := rfl
@[simp] theorem State.answer_windowBase : (s.answer r).windowBase = s.windowBase := rfl
@[simp] theorem State.answer_nextSeqNum : (s.answer r).nextSeqNum = s.nextSeqNum := rfl
@[simp] theorem State.answer_unackedBuffer : (s.answer r).unackedBuffer = s.unackedBuffer := rfl
@[simp] theorem State.answer_pendingQueue : (s.answer r).pendingQueue = s.pendingQueue := rfl
@[simp] theorem State.answer_timerRunning : (s.answer r).timerRunning = s.timerRunning := rfl
@[simp] theorem State.answer_expectedSeqNum : (s.answer r).expectedSeqNum = s.expectedSeqNum := rfl
@[simp] theorem State.answer_lastAckNum : (s.answer r).lastAckNum = s.lastAckNum := rfl
@[simp] theorem State.answer_actions : (s.answer r).out.actions = s.out.actions := rfl
@[simp] theorem State.answer_framer : (s.answer r).out.framer = some r := rfl
@[simp] theorem State.answer_trace : (s.answer r).trace = s.trace := rfl
@[simp] theorem State.answer_inbox : (s.answer r).inbox = s.inbox := rfl
end answer

section pushBack
variable (p : Bytes)
@[simp] theorem State.pushBack_cfg : (s.pushBack p).cfg = s.cfg := rfl
@[simp] theorem State.pushBack_windowBase : (s.pushBack p).windowBase = s.windowBase := rfl
@[simp] theorem State.pushBack_nextSeqNum : (s.pushBack p).nextSeqNum = s.nextSeqNum := rfl
@[simp] theorem State.pushBack_unackedBuffer : (s.pushBack p).unackedBuffer = s.unackedBuffer := rfl
@[simp] theorem State.pushBack_pendingQueue : (s.pushBack p).pendingQueue = s.pendingQueue ++ [p] := rfl
@[simp] theorem State.pushBack_timerRunning : (s.pushBack p).timerRunning = s.timerRunning := rfl
@[simp] theorem State.pushBack_expectedSeqNum : (s.pushBack p).expectedSeqNum = s.expectedSeqNum := rfl
@[simp] theorem State.pushBack_lastAckNum : (s.pushBack p).lastAckNum = s.lastAckNum := rfl
@[simp] theorem State.pushBack_out : (s.pushBack p).out = s.out := rfl
@[simp] theorem State.pushBack_trace : (s.pushBack p).trace = s.trace := rfl
@[simp] theorem State.pushBack_inbox : (s.pushBack p).inbox = s.inbox := rfl
end pushBack

section resetWith
variable (c : Config)
@[simp] theorem State.resetWith_cfg : (State.resetWith c).cfg = c := rfl
@[simp] theorem State.resetWith_windowBase : (State.resetWith c).windowBase = 0 := rfl
@[simp] theorem State.resetWith_nextSeqNum : (State.resetWith c).nextSeqNum = 0 := rfl
@[simp] theorem State.resetWith_unackedBuffer : (State.resetWith c).unackedBuffer = [] := rfl
@[simp] theorem State.resetWith_pendingQueue : (State.resetWith c).pendingQueue = [] := rfl
@[simp] theorem State.resetWith_timerRunning : (State.resetWith c).timerRunning = false := rfl
@[simp] theorem State.resetWith_expectedSeqNum : (State.resetWith c).expectedSeqNum = 0 := rfl
@[simp] theorem State.resetWith_lastAckNum : (State.resetWith c).lastAckNum = -1 := rfl
@[simp] theorem State.resetWith_trace : (State.resetWith c).trace = [] := rfl
@[simp] theorem State.resetWith_inbox : (State.resetWith c).inbox = [] := rfl
end resetWith

@[simp] theorem Output.empty_actions : Output.empty.actions = [] := rfl
@[simp] theorem Output.empty_rxClass : Output.empty.rxClass = none := rfl
@[simp] theorem Output.empty_framer : Output.empty.framer = none := rfl

end Sys2Proof.Machine
end

