-- ==== Sys2Proof/Laws/Ops.lean ====
section
/-! SUPPORT. For each shared operation one lemma that says everything it does, which later proofs cite. -/

namespace Sys2Proof.Machine

theorem State.timerStart_eq (s : State) :
    s.timerStart =
      { s with timerRunning := true, out := { s.out with actions := s.out.actions ++ startActions s } } := by
  cases h : s.timerRunning <;> simp [timerStart, stopIfRunning, startActions, emit, h]

theorem State.timerStop_eq (s : State) :
    s.timerStop =
      { s with
        timerRunning := false
        out := { s.out with actions := s.out.actions ++ if s.timerRunning then [.stopTimer s.cfg.entityId] else [] } } := by
  cases h : s.timerRunning <;> simp [timerStop, stopIfRunning, emit, h]

/-- The frame that `send_new(p)` makes. -/
def newFrame (s : State) (p : Bytes) : Bytes := encodeFrame .data (s.nextSeqNum : Int) p

/-- The actions of `send_new(p)` (R166). -/
def sendActions (s : State) (p : Bytes) : List Action :=
  .transmit s.cfg.entityId false (newFrame s p) :: if s.windowEmpty then startActions s else []

theorem State.sendNew_eq (s : State) (p : Bytes) :
    s.sendNew p =
      { s with
        nextSeqNum := s.nextSeqNum + 1
        unackedBuffer := s.unackedBuffer.write s.nextSeqNum (newFrame s p)
        timerRunning := s.timerRunning || s.windowEmpty
        out := { s.out with actions := s.out.actions ++ sendActions s p } } := by
  by_cases h : s.windowBase = s.nextSeqNum
  · simp [sendNew, sendActions, newFrame, windowEmpty, h, timerStart_eq, startActions, emit]
  · simp [sendNew, sendActions, newFrame, windowEmpty, h, emit]

theorem State.hasRoom_iff (s : State) :
    s.hasRoom = true ↔ s.nextSeqNum < s.windowBase + s.cfg.windowSize ∧ s.nextSeqNum ≤ 2147483647 := by
  simp only [hasRoom, Bool.and_eq_true, decide_eq_true_eq]; exact Iff.rfl

theorem State.hasRoom_eq_false_iff (s : State) :
    s.hasRoom = false ↔ s.windowBase + s.cfg.windowSize ≤ s.nextSeqNum ∨ 2147483648 ≤ s.nextSeqNum := by
  rw [← Bool.not_eq_true, s.hasRoom_iff]; omega

/-- The drain loop over an empty queue, or without room, does nothing; otherwise it is one pass and the rest. -/
theorem State.drain_cons (p : Bytes) (rest : List Bytes) (s : State) :
    State.drain (p :: rest) s =
      if s.hasRoom then State.drain rest ({ s with pendingQueue := rest }.sendNew p) else s := rfl

/-- Everything the drain loop does (R174, R175): it frames as many queued payloads as fit, in order, and arms the timer after
the first transmission if the window was empty. -/
theorem State.drain_eq (q : List Bytes) (s : State) (hq : s.pendingQueue = q) (hb : s.windowBase ≤ s.nextSeqNum) :
    State.drain q s =
      let ps := q.take (roomFrom s s.windowBase)
      let frames := numberedFrames s.nextSeqNum ps
      { s with
        nextSeqNum := s.nextSeqNum + ps.length
        unackedBuffer := frames.foldl (fun ub f => ub.write f.1 f.2) s.unackedBuffer
        pendingQueue := q.drop ps.length
        timerRunning := s.timerRunning || (s.windowEmpty && !frames.isEmpty)
        out := { s.out with actions := s.out.actions ++
          match frames with
          | [] => []
          | f :: rest =>
            .transmit s.cfg.entityId false f.2 ::
              ((if s.windowEmpty then startActions s else []) ++
                rest.map fun g => .transmit s.cfg.entityId false g.2) } } := by
  induction q generalizing s with
  | nil => simp [State.drain, numberedFrames]; cases s; simp_all
  | cons p rest ih =>
    rw [State.drain_cons]
    by_cases hr : s.hasRoom = true
    · rw [if_pos hr, ih _ (by rw [State.sendNew_eq]) (by rw [State.sendNew_eq]; simp; omega)]
      rw [State.hasRoom_iff] at hr
      obtain ⟨k, hk⟩ : ∃ k, roomFrom s s.windowBase = k + 1 := ⟨roomFrom s s.windowBase - 1, by unfold roomFrom; omega⟩
      have hk' : roomFrom ({ s with pendingQueue := rest }.sendNew p) s.windowBase = k := by
        rw [State.sendNew_eq]; unfold roomFrom at hk ⊢; simp only; omega
      have hw : ∀ t : State, t.windowBase = s.windowBase → t.nextSeqNum = s.nextSeqNum + 1 → t.windowEmpty = false := by
        intro t h1 h2; simp [State.windowEmpty, h1, h2]; omega
      have hb' : ({ s with pendingQueue := rest }.sendNew p).windowBase = s.windowBase := by rw [State.sendNew_eq]
      rw [hb', hk', hk, List.take_succ_cons]
      have hwE := hw ({ s with pendingQueue := rest }.sendNew p) hb' (by rw [State.sendNew_eq])
      simp only [hwE]
      rw [State.sendNew_eq]
      have hf : numberedFrames s.nextSeqNum (p :: rest.take k) =
          (s.nextSeqNum, newFrame s p) :: numberedFrames (s.nextSeqNum + 1) (rest.take k) := by
        have : ∀ a : Nat, s.nextSeqNum + 1 + a = s.nextSeqNum + (a + 1) := by intro a; omega
        simp only [numberedFrames, List.mapIdx_cons, newFrame, this, Nat.add_zero]
      rw [hf]
      simp [sendActions, newFrame, State.windowEmpty, startActions]
      refine ⟨by omega, ?_⟩
      cases numberedFrames (s.nextSeqNum + 1) (rest.take k) <;> simp
    · rw [if_neg hr]
      have : roomFrom s s.windowBase = 0 := by
        rw [State.hasRoom_iff] at hr; unfold roomFrom; omega
      simp [this, numberedFrames, ← hq]

/-- An induction for the drain loop: what every pass keeps, the loop keeps; and it ends without room or with the queue
empty. -/
theorem State.drain_induction (P : State → Prop)
    (hpass : ∀ (t : State) p rest, P t → t.pendingQueue = p :: rest → t.hasRoom = true →
      P ({ t with pendingQueue := rest }.sendNew p))
    (s : State) (hs : P s) :
    P (State.drain s.pendingQueue s) ∧
      ((State.drain s.pendingQueue s).pendingQueue = [] ∨ (State.drain s.pendingQueue s).hasRoom = false) := by
  generalize hq : s.pendingQueue = q
  induction q generalizing s with
  | nil => exact ⟨hs, .inl hq⟩
  | cons p rest ih =>
    rw [drain_cons]
    split
    · rename_i hr
      exact ih _ (hpass s p rest hs hq hr) (by rw [sendNew_eq])
    · rename_i hr
      exact ⟨hs, .inr (by simpa using hr)⟩

@[simp] theorem numberedFrames_nil (a : Nat) : numberedFrames a [] = [] := rfl

theorem numberedFrames_cons (a : Nat) (p : Bytes) (ps : List Bytes) :
    numberedFrames a (p :: ps) = (a, encodeFrame .data (a : Int) p) :: numberedFrames (a + 1) ps := by
  have : ∀ b : Nat, a + 1 + b = a + (b + 1) := by intro b; omega
  simp only [numberedFrames, List.mapIdx_cons, this, Nat.add_zero]

/-- The keys of a buffer after frames numbered from `a` up were stored above every key it had. -/
theorem keys_foldl_write (ps : List Bytes) (a : Nat) (m : Memory) (h : ∀ j ∈ m.keys, j < a) :
    ((numberedFrames a ps).foldl (fun ub f => ub.write f.1 f.2) m).keys = m.keys ++ List.range' a ps.length := by
  induction ps generalizing a m with
  | nil => simp
  | cons p ps ih =>
    have hk := Memory.keys_write_append (encodeFrame .data (a : Int) p) h
    rw [numberedFrames_cons, List.foldl_cons, ih, hk, List.length_cons, List.range'_succ]
    · simp
    · intro j hj
      rw [hk, List.mem_append, List.mem_singleton] at hj
      rcases hj with hj | hj
      · have := h j hj; omega
      · omega

/-- What a read finds after frames numbered from `a` up were stored: what was there, or the frame of a payload. -/
theorem read_foldl_write (ps : List Bytes) (a : Nat) (m : Memory) (n : Nat) (f : Bytes)
    (h : ((numberedFrames a ps).foldl (fun ub f => ub.write f.1 f.2) m).read n = some f) :
    m.read n = some f ∨ ∃ p ∈ ps, f = encodeFrame .data (n : Int) p := by
  induction ps generalizing a m with
  | nil => exact .inl h
  | cons p ps ih =>
    rw [numberedFrames_cons, List.foldl_cons] at h
    rcases ih _ _ h with h | ⟨q, hq, h⟩
    · rw [Memory.read_write] at h
      split at h
      · rename_i hn; subst hn; cases h; exact .inr ⟨p, by simp, rfl⟩
      · exact .inl h
    · exact .inr ⟨q, by simp [hq], h⟩

theorem wf_foldl_write (fs : List (Nat × Bytes)) (m : Memory) (h : m.wf) :
    (fs.foldl (fun ub f => ub.write f.1 f.2) m).wf := by
  induction fs generalizing m with
  | nil => exact h
  | cons f fs ih => exact ih _ (Memory.wf_write h f.1 f.2)

/-- The retransmission loop answers a next state when every key it reads is stored, and then it does nothing but emit the
stored frames in order. -/
theorem State.retransmit_eq (count n : Nat) (s : State) (f : Nat → Bytes)
    (h : ∀ k, n ≤ k → k < n + count → s.unackedBuffer.read k = some (f k)) :
    State.retransmit count n s =
      .next { s with out := { s.out with
        actions := s.out.actions ++ (List.range' n count).map fun k => .transmit s.cfg.entityId false (f k) } } := by
  induction count generalizing n s with
  | zero => simp [retransmit]
  | succ count ih =>
    unfold retransmit
    rw [h n le_rfl (by omega)]
    simp only
    rw [ih (n + 1) (s.emit _) (fun k h1 h2 => h k (by omega) (by omega))]
    simp [emit, List.range'_succ]

/-- An absent key inside the range stops the loop with its fault; nothing else can. -/
theorem State.retransmit_next_or_fault (count n : Nat) (s : State) :
    (∃ t, State.retransmit count n s = .next t) ∨
      (∃ k, n ≤ k ∧ k < n + count ∧ s.unackedBuffer.read k = none ∧ State.retransmit count n s = .fault (.absentKey k)) := by
  induction count generalizing n s with
  | zero => exact .inl ⟨s, rfl⟩
  | succ count ih =>
    unfold retransmit
    cases hr : s.unackedBuffer.read n with
    | none => exact .inr ⟨n, le_rfl, by omega, hr, rfl⟩
    | some pkt =>
      rcases ih (n + 1) (s.emit (.transmit s.cfg.entityId false pkt)) with h | ⟨k, h1, h2, h3, h4⟩
      · exact .inl h
      · exact .inr ⟨k, by omega, by omega, h3, h4⟩

/-- A loop that ran to its end found every key it read. -/
theorem State.retransmit_reads (count n : Nat) (s t : State) (h : State.retransmit count n s = .next t) :
    ∀ k, n ≤ k → k < n + count → (s.unackedBuffer.read k).isSome = true := by
  induction count generalizing n s with
  | zero => intro k h1 h2; omega
  | succ count ih =>
    intro k h1 h2
    unfold retransmit at h
    cases hr : s.unackedBuffer.read n with
    | none => rw [hr] at h; cases h
    | some pkt =>
      rw [hr] at h
      by_cases hk : k = n
      · simp [hk, hr]
      · exact ih (n + 1) (s.emit _) h k (by omega) (by omega)

/-- The loop writes nothing but the outputs. -/
theorem State.retransmit_frame (count n : Nat) (s t : State) (h : State.retransmit count n s = .next t) :
    t = { s with out := t.out } := by
  induction count generalizing n s with
  | zero => cases h; rfl
  | succ count ih =>
    unfold retransmit at h
    split at h
    · cases h
    · exact ih _ (s.emit _) h

/-- Everything the transmission of the last ACK does (42_receiver R203). -/
theorem State.sendLastAck_eq (s : State) :
    s.sendLastAck =
      { s with out := { s.out with
        actions := s.out.actions ++ [.transmit s.cfg.entityId true (encodeFrame .ack s.lastAckNum [])] } } := rfl

/-- Everything the accept branch does (42_receiver R202). -/
theorem State.acceptData_eq (s : State) (payload : Bytes) :
    s.acceptData payload =
      { s with
        expectedSeqNum := s.expectedSeqNum + 1
        lastAckNum := (s.expectedSeqNum : Int)
        out := { s.out with
          actions := s.out.actions ++ [.deliver s.cfg.entityId payload,
            .transmit s.cfg.entityId true (encodeFrame .ack (s.expectedSeqNum : Int) [])] } } := by
  simp [acceptData, sendLastAck, emit]

/-- The state an accepted ACK hands to the drain loop (41_sender R173). -/
theorem State.acceptAck_eq (s : State) (n : Nat) :
    s.acceptAck n = State.drain s.pendingQueue
      { s with
        windowBase := n + 1
        unackedBuffer := s.unackedBuffer.evictBelow (n + 1)
        timerRunning := !decide (n + 1 = s.nextSeqNum)
        out := { s.out with
          actions := s.out.actions ++ (if s.timerRunning then [.stopTimer s.cfg.entityId] else []) ++
            if n + 1 = s.nextSeqNum then [] else [.startTimer s.cfg.entityId s.cfg.timerInterval] } } := by
  by_cases h : n + 1 = s.nextSeqNum
  · simp [acceptAck, timerStop_eq, windowEmpty, h]
  · simp [acceptAck, timerStop_eq, timerStart_eq, startActions, windowEmpty, h]

end Sys2Proof.Machine
end

