-- ==== Sys2Proof/Laws/Entity.lean ====
section
/-! SUPPORT. What the controller makes of a received frame. -/

namespace Sys2Proof.Machine

/-- The signed reading of a 32-bit word is `s32` of its value (00_scope R14). -/
theorem toInt_eq_s32 (n : BitVec 32) : n.toInt = s32 n.toNat := by
  have := n.isLt
  rw [BitVec.toInt_eq_toNat_cond]
  unfold s32
  split <;> split <;> omega

@[simp] theorem packetBytes_length (k : Kind) (n : BitVec 32) (c : BitVec 16) (l : BitVec 32) (body : Bytes) :
    (packetBytes k n c l body).length = 12 + body.length := layout_length _ _ _ _ _

/-- What `decode` makes of a packet's bytes: a failure exactly when the body is shorter than declared. -/
theorem decodeFrame_packetBytes (k : Kind) (n : BitVec 32) (c : BitVec 16) (l : BitVec 32) (body : Bytes) :
    decodeFrame (packetBytes k n c l body) =
      if body.length < l.toNat then .fail (some (kindTag k))
      else .packet
        { kind := kindTag k, number := n.toInt, checksum := c.toNat, payloadLength := l.toNat
          payload := body.take l.toNat } := by
  rw [toInt_eq_s32]
  exact decodeFrame_layout body (kindTag_lt k) n.isLt c.isLt l.isLt

/-- A failed `decode` of two bytes or more still has the tag. -/
theorem tag_of_fail {B : Bytes} {t : Option Nat} (h : decodeFrame B = .fail t) (h2 : 2 ≤ B.length) :
    t = some (u16 B 0) := by
  unfold decodeFrame at h
  split at h
  · omega
  · split at h
    · cases h; rfl
    · split at h
      · cases h; rfl
      · cases h

/-- Everything a successful `decode` says (40_framer R135). -/
theorem packet_of_decode {B : Bytes} {p : Packet} (h : decodeFrame B = .packet p) :
    12 ≤ B.length ∧ 12 + u32 B 8 ≤ B.length ∧
      p = ⟨u16 B 0, s32 (u32 B 2), u16 B 6, u32 B 8, (B.drop 12).take (u32 B 8)⟩ := by
  unfold decodeFrame at h
  split at h
  · cases h
  · split at h
    · cases h
    · split at h
      · cases h
      · cases h; exact ⟨by omega, by omega, rfl⟩

@[simp] theorem State.route_ack (s : State) (good : Option Packet) :
    s.route 0 good = s.onAckReceived (good.map (·.number)) := rfl

@[simp] theorem State.route_data (s : State) (good : Option Packet) :
    s.route 128 good = s.onDataReceived (good.map fun p => (p.number, p.payload)) := rfl

theorem State.route_unknown (s : State) {tag : Nat} (good : Option Packet) (h0 : tag ≠ 0) (h1 : tag ≠ 128) :
    s.route tag good = s.classify .dropUnknownKind := by
  simp [route, kindOfTag, h0, h1]

end Sys2Proof.Machine
end

