-- ==== Sys2Proof/Laws/Fetch.lean ====
section
/-! SUPPORT. What a waiting stimulus offers, and the rank that the reference mux gives to each operation. -/

namespace Sys2Proof.Machine

theorem State.offers_of_ok {s : State} {w : Waiting} {i : Instr} (h : decode w.record = .ok i) :
    s.offers w = if s.admits i then some i else none := by
  unfold offers; rw [h]

theorem State.offers_of_error {s : State} {w : Waiting} {e : DecodeError} (h : decode w.record = .error e) :
    s.offers w = none := by
  unfold offers; rw [h]

/-- A waiting stimulus offers exactly the operation that its record decodes to, when that is admitted. -/
theorem State.offers_eq_some_iff {s : State} {w : Waiting} {i : Instr} :
    s.offers w = some i ↔ decode w.record = .ok i ∧ s.admits i = true := by
  cases h : decode w.record with
  | error e => simp [offers_of_error h]
  | ok j =>
    rw [offers_of_ok h]
    by_cases ha : s.admits j = true
    · rw [if_pos ha]
      exact ⟨fun hj => by cases hj; exact ⟨rfl, ha⟩, fun hj => by cases hj.1; rfl⟩
    · rw [if_neg ha]
      exact ⟨nofun, fun hj => by cases hj.1; exact absurd hj.2 ha⟩

theorem State.offers_eq_none_iff {s : State} {w : Waiting} :
    s.offers w = none ↔ ∀ i, decode w.record = .ok i → s.admits i = false := by
  rw [Option.eq_none_iff_forall_ne_some]
  refine forall_congr' fun i => ?_
  rw [Ne, offers_eq_some_iff, not_and, Bool.not_eq_true]

theorem State.takeNext_of_offers {s : State} {w : Waiting} {i : Instr} (rest : List Waiting) (h : s.offers w = some i) :
    s.takeNext (w :: rest) = some (i, rest) := by
  unfold takeNext; rw [h]

theorem State.takeNext_of_none {s : State} {w : Waiting} (rest : List Waiting) (h : s.offers w = none) :
    s.takeNext (w :: rest) = (s.takeNext rest).map fun x => (x.1, w :: x.2) := by
  rw [takeNext, h]

/-- The record at the channel is a frame, whose operation is an RX. -/
theorem isReceiveOp_decodePkt (bytes : Bytes) : isReceiveOp (decodePkt bytes) = true := by
  unfold decodePkt
  split
  · rfl
  · split <;> rfl

/-- The operation of an STIM record is the one that its `op` bits say. -/
theorem op_of_decodeStim {bytes : Bytes} {i : Instr} (h : decodeStim bytes = .ok i) :
    (bitsOf (leNat bytes) 0 2 = 0 ∧ i = .idle) ∨ (bitsOf (leNat bytes) 0 2 = 1 ∧ ∃ p, i = .submit p) ∨
      (bitsOf (leNat bytes) 0 2 = 2 ∧ ∃ B, i = .rx B) ∨ (bitsOf (leNat bytes) 0 2 = 3 ∧ i = .timeout) := by
  have hlt : bitsOf (leNat bytes) 0 2 < 4 := Nat.mod_lt _ (by decide)
  have hmap : ∀ {x : Except DecodeError Bytes} {f : Bytes → Instr}, x.map f = .ok i → ∃ b, i = f b := by
    intro x f hx
    cases x with
    | error e => cases hx
    | ok b => cases hx; exact ⟨b, rfl⟩
  unfold decodeStim at h
  obtain ho | ho | ho | ho : bitsOf (leNat bytes) 0 2 = 0 ∨ bitsOf (leNat bytes) 0 2 = 1 ∨
      bitsOf (leNat bytes) 0 2 = 2 ∨ bitsOf (leNat bytes) 0 2 = 3 := by omega
  all_goals simp only [ho] at h
  · exact .inl ⟨ho, (hmap h).choose_spec⟩
  · exact .inr (.inl ⟨ho, hmap h⟩)
  · exact .inr (.inr (.inl ⟨ho, hmap h⟩))
  · exact .inr (.inr (.inr ⟨ho, (hmap h).choose_spec⟩))

/-- The rank of a waiting stimulus is that of the operation its record decodes to (60_exceptions R277). -/
theorem rank_of_decode {w : Waiting} {i : Instr} (h : decode w.record = .ok i) :
    (isReceiveOp i = true ∧ w.rank = 0) ∨ (i = .timeout ∧ w.rank = 1) ∨ ((∃ p, i = .submit p) ∧ w.rank = 2) ∨
      (i = .idle ∧ w.rank = 3) := by
  obtain ⟨port, bytes⟩ := w
  cases port with
  | channel => cases h; exact .inl ⟨isReceiveOp_decodePkt bytes, rfl⟩
  | stimulus =>
    rcases op_of_decodeStim (bytes := bytes) h with ⟨ho, rfl⟩ | ⟨ho, p, rfl⟩ | ⟨ho, B, rfl⟩ | ⟨ho, rfl⟩ <;>
      simp [Waiting.rank, ho, isReceiveOp]

/-- A waiting stimulus has one of the four ranks. -/
theorem Waiting.rank_le (w : Waiting) : w.rank ≤ 3 := by
  unfold rank
  split
  · omega
  · split <;> omega

end Sys2Proof.Machine
end

