-- ==== Sys2Proof/Laws/PerInstr.lean ====
section
/-! SUPPORT. The family OpcodeRow: the record that the encoder makes for an operation lies in the format of its row of
spec/opcode_table.json and carries the row's code: `op` or `fn` in bits 1:0, or the kind tag in a frame's first two bytes. -/

namespace Sys2Proof.Laws.OpcodeRow

/-- The format of a row (30_encoding R106). -/
def rowFormat : Instr → Format
  | .idle => .stim
  | .submit _ => .stim
  | .rx _ => .stim
  | .timeout => .stim
  | .pktAck _ _ _ _ => .pkt
  | .pktData _ _ _ _ => .pkt
  | .transmit _ _ _ => .act
  | .deliver _ _ => .act
  | .startTimer _ _ => .act
  | .stopTimer _ => .act
  | .frmEncode _ _ _ => .frm
  | .frmDecode _ => .frm
  | .frmVerify _ => .frm

/-- The `match` value of a row: of the two code bits, or of the 16 bits of `kind`. -/
def rowCode : Instr → Nat
  | .idle => 0
  | .submit _ => 1
  | .rx _ => 2
  | .timeout => 3
  | .pktAck _ _ _ _ => 0
  | .pktData _ _ _ _ => 0x80
  | .transmit _ _ _ => 0
  | .deliver _ _ => 1
  | .startTimer _ _ => 2
  | .stopTimer _ => 3
  | .frmEncode _ _ _ => 0
  | .frmDecode _ => 1
  | .frmVerify _ => 2

/-- The code that a record carries. -/
def codeOf (r : Record) : Nat :=
  match r.format with
  | .pkt => Machine.u16 r.bytes 0
  | .stim => bitsOf (leNat r.bytes) 0 2
  | .act => bitsOf (leNat r.bytes) 0 2
  | .frm => bitsOf (leNat r.bytes) 0 2

def Statement (i : Instr) : Prop := (encode i).format = rowFormat i ∧ codeOf (encode i) = rowCode i

/-- The two code bits of a packed record are those of its header. -/
theorem code_packBytes (hbits k header : Nat) (b : Bytes) :
    bitsOf (leNat (packBytes (hbits + 2) (k + 1) header b)) 0 2 = header % 4 := by
  have h : (256 : Nat) ^ (k + 1 + b.length) = 4 * (64 * 256 ^ (k + b.length)) := by
    rw [show k + 1 + b.length = k + b.length + 1 by omega, pow_succ]; ring
  have h2 : header + 2 ^ (hbits + 2) * leNat b = header + 4 * (2 ^ hbits * leNat b) := by rw [pow_add]; ring
  simp only [packBytes, leNat_leBytes, bitsOf, pow_zero, Nat.div_one]
  rw [h, h2, show (2 : Nat) ^ 2 = 4 from rfl, Nat.mod_mul_right_mod, Nat.add_mul_mod_self_left]

theorem idle : Statement .idle := ⟨rfl, code_packBytes 32 4 _ _⟩

theorem submit (payload : Bytes) : Statement (.submit payload) :=
  ⟨rfl, (code_packBytes 32 4 _ _).trans (by simp [rowCode])⟩

theorem rx (frame : Bytes) : Statement (.rx frame) := ⟨rfl, (code_packBytes 32 4 _ _).trans (by simp [rowCode])⟩

theorem timeout : Statement .timeout := ⟨rfl, code_packBytes 32 4 _ _⟩

theorem pktAck (number : BitVec 32) (checksum : BitVec 16) (payloadLength : BitVec 32) (body : Bytes) :
    Statement (.pktAck number checksum payloadLength body) :=
  ⟨rfl, Machine.layout_u16_kind _ _ _ _ (by decide)⟩

theorem pktData (number : BitVec 32) (checksum : BitVec 16) (payloadLength : BitVec 32) (body : Bytes) :
    Statement (.pktData number checksum payloadLength body) :=
  ⟨rfl, Machine.layout_u16_kind _ _ _ _ (by decide)⟩

theorem transmit (entity : EntityId) (isAck : Bool) (frame : Bytes) : Statement (.transmit entity isAck frame) :=
  ⟨rfl, (code_packBytes 66 8 _ _).trans (by simp only [rowCode]; omega)⟩

theorem deliver (entity : EntityId) (payload : Bytes) : Statement (.deliver entity payload) :=
  ⟨rfl, (code_packBytes 66 8 _ _).trans (by simp only [rowCode]; omega)⟩

theorem startTimer (entity : EntityId) (duration : Duration) : Statement (.startTimer entity duration) :=
  ⟨rfl, (code_packBytes 66 8 _ _).trans (by simp only [rowCode]; omega)⟩

theorem stopTimer (entity : EntityId) : Statement (.stopTimer entity) :=
  ⟨rfl, (code_packBytes 66 8 _ _).trans (by simp only [rowCode]; omega)⟩

theorem frmEncode (kind : Kind) (number : Int) (payload : Bytes) : Statement (.frmEncode kind number payload) :=
  ⟨rfl, (code_packBytes 80 10 _ _).trans (by simp only [rowCode]; omega)⟩

theorem frmDecode (bytes : Bytes) : Statement (.frmDecode bytes) :=
  ⟨rfl, (code_packBytes 32 4 _ _).trans (by simp [rowCode])⟩

theorem frmVerify (bytes : Bytes) : Statement (.frmVerify bytes) :=
  ⟨rfl, (code_packBytes 32 4 _ _).trans (by simp [rowCode])⟩

end Sys2Proof.Laws.OpcodeRow
end

