-- ==== Sys2Proof/Laws/Step.lean ====
section
/-! SUPPORT. What a step can do, said once: every next state of an operation is one of the effects below, with the
conditions under which it comes about. Later proofs take the cases of `Effect` and unfold no meaning. -/

namespace Sys2Proof.Machine

/-- The state after an accepted ACK for `m`, carried by the frame `B` (41_sender R173 to R175). -/
def afterAck (s : State) (B : Bytes) (m : Nat) : State :=
  let emptied := decide (m + 1 = s.nextSeqNum)
  let frames := numberedFrames s.nextSeqNum (drained s m)
  let actions :=
    (if s.timerRunning then [Action.stopTimer s.cfg.entityId] else []) ++
    (if emptied then [] else [.startTimer s.cfg.entityId s.cfg.timerInterval]) ++
    drainActions s emptied frames
  { s with
    windowBase := m + 1
    nextSeqNum := s.nextSeqNum + (drained s m).length
    unackedBuffer := frames.foldl (fun ub f => ub.write f.1 f.2) (s.unackedBuffer.evictBelow (m + 1))
    pendingQueue := s.pendingQueue.drop (drained s m).length
    timerRunning := !emptied || !frames.isEmpty
    out := ⟨actions, some .ackAccept, none⟩
    trace := s.trace ++ [⟨.rx B, actions⟩] }

/-- The actions of an accepted DATA frame (42_receiver R202). -/
def acceptActions (s : State) (payload : Bytes) : List Action :=
  [.deliver s.cfg.entityId payload, .transmit s.cfg.entityId true (encodeFrame .ack (s.expectedSeqNum : Int) [])]

/-- The actions of a rejected DATA frame (42_receiver R203). -/
def rejectActions (s : State) : List Action :=
  [.transmit s.cfg.entityId true (encodeFrame .ack s.lastAckNum [])]

/-- The actions of a TIMEOUT whose window holds the frames `f n` (41_sender R177). -/
def timeoutActions (s : State) (f : Nat → Bytes) : List Action :=
  .startTimer s.cfg.entityId s.cfg.timerInterval ::
    (List.range' s.windowBase (s.nextSeqNum - s.windowBase)).map fun n => .transmit s.cfg.entityId false (f n)

/-- Everything an admitted RX of the bytes `B` can do to a state. -/
inductive RxEffect (s : State) (B : Bytes) : State → Prop
  /-- a received frame that changes nothing and is not answered -/
  | absorbed (k : RxClass)
    (hk : k = .ackCorrupt ∨ k = .ackStale ∨ k = .ackAhead ∨ k = .dropUnknownKind ∨ k = .dropUnreadable)
    (hc : rxClassOf s B = k) :
    RxEffect s B { s with out := ⟨[], some k, none⟩, trace := s.trace ++ [⟨.rx B, []⟩] }
  /-- an accepted ACK -/
  | acked (m : Nat) (h1 : s.windowBase ≤ m) (h2 : m < s.nextSeqNum) (hc : rxClassOf s B = .ackAccept) :
    RxEffect s B (afterAck s B m)
  /-- a rejected DATA frame -/
  | rejected (k : RxClass) (hk : k = .dataCorrupt ∨ k = .dataUnexpected) (hc : rxClassOf s B = k) :
    RxEffect s B { s with out := ⟨rejectActions s, some k, none⟩, trace := s.trace ++ [⟨.rx B, rejectActions s⟩] }
  /-- an accepted DATA frame -/
  | accepted (p : Packet) (hd : decodeFrame B = .packet p) (hv : verify B = true) (hk : p.kind = 128)
    (hn : p.number = (s.expectedSeqNum : Int)) (hc : rxClassOf s B = .dataAccept) :
    RxEffect s B { s with
      expectedSeqNum := s.expectedSeqNum + 1
      lastAckNum := (s.expectedSeqNum : Int)
      out := ⟨acceptActions s p.payload, some .dataAccept, none⟩
      trace := s.trace ++ [⟨.rx B, acceptActions s p.payload⟩] }

/-- Everything an operation can do to a state. -/
inductive Effect (s : State) : State → Prop
  /-- no register changes: IDLE, an action handed out, a framer call, a stimulus that is not admitted -/
  | quiet (o : Output) : Effect s { s with out := o }
  /-- a SUBMIT that is framed and sent -/
  | sent (p : Bytes) (hp : p.length ≤ s.cfg.maxPayload) (hr : s.hasRoom = true) :
    Effect s { s with
      nextSeqNum := s.nextSeqNum + 1
      unackedBuffer := s.unackedBuffer.write s.nextSeqNum (newFrame s p)
      timerRunning := s.timerRunning || s.windowEmpty
      out := ⟨sendActions s p, none, none⟩
      trace := s.trace ++ [⟨.submit p, sendActions s p⟩] }
  /-- a SUBMIT that is queued -/
  | queued (p : Bytes) (hp : s.submitAdmitted p = true) (hr : s.hasRoom = false) :
    Effect s { s with
      pendingQueue := s.pendingQueue ++ [p]
      out := Output.empty
      trace := s.trace ++ [⟨.submit p, []⟩] }
  /-- a TIMEOUT -/
  | timedOut (f : Nat → Bytes) (hf : ∀ n, s.windowBase ≤ n → n < s.nextSeqNum → s.unackedBuffer.read n = some (f n)) :
    Effect s { s with
      timerRunning := true
      out := ⟨timeoutActions s f, none, none⟩
      trace := s.trace ++ [⟨.timeout, timeoutActions s f⟩] }
  /-- a received frame -/
  | received (B : Bytes) (t : State) (h : RxEffect s B t) : Effect s t

/-- What an accepted ACK comes to, from the state as a step begins (41_sender R173 to R175). -/
theorem afterAck_eq (s : State) (B : Bytes) (m : Nat) (h2 : m < s.nextSeqNum) :
    ((s.beginStep.classify .ackAccept).acceptAck m).endStep (.rx B) = afterAck s B m := by
  rw [State.acceptAck_eq, show (s.beginStep.classify RxClass.ackAccept).pendingQueue = s.pendingQueue from rfl,
    State.drain_eq s.pendingQueue _ ?_ ?_]
  rotate_left
  · rfl
  · simp; omega
  simp only [afterAck, drained, roomFrom, State.classify_cfg, State.beginStep_cfg, State.classify_nextSeqNum,
    State.beginStep_nextSeqNum]
  generalize List.take (min (m + 1 + s.cfg.windowSize) 2147483648 - s.nextSeqNum) s.pendingQueue = ps
  by_cases hE : m + 1 = s.nextSeqNum
  · cases hF : numberedFrames s.nextSeqNum ps <;>
      simp [hE, State.endStep, State.windowEmpty, startActions, drainActions, State.classify, State.beginStep,
        Output.empty] <;> rfl
  · cases hF : numberedFrames s.nextSeqNum ps <;>
      simp [hE, State.endStep, State.windowEmpty, drainActions, State.classify, State.beginStep,
        Output.empty] <;> rfl

/-- The tag of a decoded packet is the tag of its bytes. -/
theorem frameTag_of_decode {B : Bytes} {p : Packet} (h : decodeFrame B = .packet p) : frameTag B = some p.kind := by
  obtain ⟨h1, -, rfl⟩ := packet_of_decode h
  simp [frameTag, show ¬ B.length < 2 by omega]

/-- Everything an admitted RX does, whatever its bytes. -/
theorem rx_effect (s : State) (B : Bytes) : RxEffect s B ((s.beginStep.rxDispatch B).endStep (.rx B)) := by
  have hq : ∀ k, rxClassOf s B = k →
      (k = .ackCorrupt ∨ k = .ackStale ∨ k = .ackAhead ∨ k = .dropUnknownKind ∨ k = .dropUnreadable) →
      s.beginStep.rxDispatch B = s.beginStep.classify k →
      RxEffect s B ((s.beginStep.rxDispatch B).endStep (.rx B)) := by
    intro k hc hk h; rw [h]; exact .absorbed k hk hc
  have hj : ∀ k, rxClassOf s B = k → (k = .dataCorrupt ∨ k = .dataUnexpected) →
      s.beginStep.rxDispatch B = (s.beginStep.classify k).sendLastAck →
      RxEffect s B ((s.beginStep.rxDispatch B).endStep (.rx B)) := by
    intro k hc hk h; rw [h]; exact .rejected k hk hc
  cases hd : decodeFrame B with
  | fail t =>
    have hcor : corrupt B = true := by simp [corrupt, hd]
    by_cases hlen : B.length < 2
    · have : t = none := by simpa [decodeFrame, hlen] using hd.symm
      subst this
      exact hq .dropUnreadable (by simp [rxClassOf, frameTag, hlen]) (by simp) (by simp [State.rxDispatch, hd])
    · obtain rfl := tag_of_fail hd (by omega)
      have ht : frameTag B = some (u16 B 0) := by simp [frameTag, hlen]
      by_cases h0 : u16 B 0 = 0
      · exact hq .ackCorrupt (by simp [rxClassOf, ht, h0, hcor]) (by simp)
          (by simp [State.rxDispatch, hd, h0, State.onAckReceived])
      · by_cases h1 : u16 B 0 = 128
        · exact hj .dataCorrupt (by simp [rxClassOf, ht, h1, hcor]) (by simp)
            (by simp [State.rxDispatch, hd, h1, State.onDataReceived])
        · exact hq .dropUnknownKind (by simp [rxClassOf, ht, h0, h1]) (by simp)
            (by simp [State.rxDispatch, hd, State.route_unknown _ _ h0 h1])
  | packet p =>
    have ht := frameTag_of_decode hd
    have hpn : p.number = s32 (u32 B 2) := by obtain ⟨-, -, rfl⟩ := packet_of_decode hd; rfl
    have hcor : corrupt B = !verify B := by simp [corrupt, hd]
    by_cases h0 : p.kind = 0
    · cases hv : verify B with
      | false =>
        exact hq .ackCorrupt (by simp [rxClassOf, ht, h0, hcor, hv]) (by simp)
          (by simp [State.rxDispatch, hd, h0, hv, State.onAckReceived])
      | true =>
        by_cases h1 : p.number < (s.windowBase : Int)
        · exact hq .ackStale (by simp [rxClassOf, ht, h0, hcor, hv, ← hpn, h1]) (by simp)
            (by simp [State.rxDispatch, hd, h0, hv, State.onAckReceived, h1])
        · by_cases h2 : p.number ≥ (s.nextSeqNum : Int)
          · exact hq .ackAhead (by simp [rxClassOf, ht, h0, hcor, hv, ← hpn, h1, h2]) (by simp)
              (by simp [State.rxDispatch, hd, h0, hv, State.onAckReceived, h1, h2])
          · have hc : rxClassOf s B = .ackAccept := by simp [rxClassOf, ht, h0, hcor, hv, ← hpn, h1, h2]
            have hr : s.beginStep.rxDispatch B = (s.beginStep.classify .ackAccept).acceptAck p.number.toNat := by
              simp [State.rxDispatch, hd, h0, hv, State.onAckReceived, h1, h2]
            rw [hr, afterAck_eq s B _ (by omega)]
            exact .acked _ (by omega) (by omega) hc
    · by_cases h8 : p.kind = 128
      · cases hv : verify B with
        | false =>
          exact hj .dataCorrupt (by simp [rxClassOf, ht, h8, hcor, hv]) (by simp)
            (by simp [State.rxDispatch, hd, h8, hv, State.onDataReceived])
        | true =>
          by_cases h1 : p.number = (s.expectedSeqNum : Int)
          · have hc : rxClassOf s B = .dataAccept := by simp [rxClassOf, ht, h8, hcor, hv, ← hpn, h1]
            have hr : s.beginStep.rxDispatch B = (s.beginStep.classify .dataAccept).acceptData p.payload := by
              simp [State.rxDispatch, hd, h8, hv, State.onDataReceived, h1]
            rw [hr, State.acceptData_eq]
            exact .accepted p hd hv h8 h1 hc
          · exact hj .dataUnexpected (by simp [rxClassOf, ht, h8, hcor, hv, ← hpn, h1]) (by simp)
              (by simp [State.rxDispatch, hd, h8, hv, State.onDataReceived, h1])
      · exact hq .dropUnknownKind (by simp [rxClassOf, ht, h0, h8]) (by simp)
          (by simp [State.rxDispatch, hd, State.route_unknown _ _ h0 h8])

/-- What the controller makes of a frame with a complete header and kind ACK. -/
theorem rxDispatch_ack (s : State) (n : BitVec 32) (c : BitVec 16) (l : BitVec 32) (body : Bytes) :
    s.rxDispatch (packetBytes .ack n c l body) =
      s.onAckReceived (if verify (packetBytes .ack n c l body) = true ∧ l.toNat ≤ body.length then some n.toInt else none) := by
  unfold State.rxDispatch
  rw [decodeFrame_packetBytes]
  by_cases hl : body.length < l.toNat
  · simp only [hl, show ¬ l.toNat ≤ body.length by omega, if_true, and_false, if_false]; rfl
  · by_cases hv : verify (packetBytes .ack n c l body) = true <;>
      simp only [hl, show l.toNat ≤ body.length by omega, hv, if_true, if_false, and_true, Bool.false_eq_true] <;> rfl

/-- What the controller makes of a frame with a complete header and kind DATA. -/
theorem rxDispatch_data (s : State) (n : BitVec 32) (c : BitVec 16) (l : BitVec 32) (body : Bytes) :
    s.rxDispatch (packetBytes .data n c l body) =
      s.onDataReceived (if verify (packetBytes .data n c l body) = true ∧ l.toNat ≤ body.length then
        some (n.toInt, body.take l.toNat) else none) := by
  unfold State.rxDispatch
  rw [decodeFrame_packetBytes]
  by_cases hl : body.length < l.toNat
  · simp only [hl, show ¬ l.toNat ≤ body.length by omega, if_true, and_false, if_false]; rfl
  · by_cases hv : verify (packetBytes .data n c l body) = true <;>
      simp only [hl, show l.toNat ≤ body.length by omega, hv, if_true, if_false, and_true, Bool.false_eq_true] <;> rfl

/-- A TIMEOUT either sends the whole window again or stops on a key that `UB` does not hold. -/
theorem timeout_effect (s : State) :
    (∃ t, execTimeout s = .next t ∧ Effect s t) ∨
      (∃ n, s.windowBase ≤ n ∧ n < s.nextSeqNum ∧ s.unackedBuffer.read n = none ∧
        execTimeout s = .fault (.absentKey n)) := by
  by_cases h : ∀ n, s.windowBase ≤ n → n < s.nextSeqNum → (s.unackedBuffer.read n).isSome = true
  · have hf : ∀ n, s.windowBase ≤ n → n < s.nextSeqNum →
        s.unackedBuffer.read n = some ((s.unackedBuffer.read n).getD []) := by
      intro n h1 h2
      obtain ⟨v, hv⟩ := Option.isSome_iff_exists.1 (h n h1 h2)
      simp [hv]
    refine .inl ⟨_, ?_, .timedOut _ hf⟩
    unfold execTimeout
    simp only [State.timerStart_eq, State.beginStep_nextSeqNum, State.beginStep_windowBase]
    rw [State.retransmit_eq _ _ _ (fun k => (s.unackedBuffer.read k).getD []) ?_]
    rotate_left
    · exact fun k h1 h2 => hf k h1 (by omega)
    simp [State.endStep, State.beginStep, startActions, timeoutActions, Output.empty]
  · simp only [not_forall] at h
    obtain ⟨n, h1, h2, h3⟩ := h
    generalize hu : ({ s.beginStep with timerRunning := false } : State).timerStart = u
    have hb : u.windowBase = s.windowBase ∧ u.nextSeqNum = s.nextSeqNum ∧ u.unackedBuffer = s.unackedBuffer := by
      rw [← hu, State.timerStart_eq]; exact ⟨rfl, rfl, rfl⟩
    rw [← hb.2.2] at h3 ⊢
    have hx : execTimeout s =
        match State.retransmit (s.nextSeqNum - s.windowBase) s.windowBase u with
        | .next s => .next (s.endStep .timeout)
        | .fault r => .fault r
        | .refused r => .refused r := by
      rw [← hb.1, ← hb.2.1, ← hu]; rfl
    rcases State.retransmit_next_or_fault (s.nextSeqNum - s.windowBase) s.windowBase u with ⟨t, ht⟩ | ⟨k, a, b, c, d⟩
    · exact absurd (State.retransmit_reads _ _ _ _ ht n h1 (by omega)) h3
    · exact .inr ⟨k, a, by omega, c, by rw [hx, d]⟩

/-- Everything an operation does when it answers a next state. -/
theorem exec_effect {i : Instr} {s t : State} (h : exec i s = .next t) : Effect s t := by
  have hs : Effect s s := .quiet s.out
  cases i with
  | idle => cases h; exact hs
  | submit p =>
    simp only [exec, execSubmit] at h
    split at h
    · cases h
      rename_i ha
      by_cases hr : s.hasRoom = true
      · simp only [State.submitAdmitted, Bool.and_eq_true, decide_eq_true_eq] at ha
        rw [if_pos (show s.beginStep.hasRoom = true from hr), State.sendNew_eq]
        exact .sent p ha.1 hr
      · rw [if_neg (show ¬ s.beginStep.hasRoom = true from hr)]
        exact .queued p ha (by simpa using hr)
    · cases h; exact hs
  | rx B =>
    simp only [exec, execRx] at h
    split at h
    · cases h; exact .received B _ (rx_effect s B)
    · cases h; exact hs
  | timeout =>
    rcases timeout_effect s with ⟨u, hu, he⟩ | ⟨n, -, -, -, hu⟩
    · rw [exec, hu] at h; cases h; exact he
    · rw [exec, hu] at h; cases h
  | pktAck n c l body =>
    simp only [exec, execPktAck] at h
    split at h
    · rw [← rxDispatch_ack] at h
      cases h; exact .received _ _ (rx_effect s _)
    · cases h; exact hs
  | pktData n c l body =>
    simp only [exec, execPktData] at h
    split at h
    · rw [← rxDispatch_data] at h
      cases h; exact .received _ _ (rx_effect s _)
    · cases h; exact hs
  | transmit e a f => cases h; exact .quiet _
  | deliver e p => cases h; exact .quiet _
  | startTimer e d => cases h; exact .quiet _
  | stopTimer e => cases h; exact .quiet _
  | frmEncode k n p => cases h; exact .quiet _
  | frmDecode b => cases h; exact .quiet _
  | frmVerify b => cases h; exact .quiet _

/-- Everything the machine does in one step: nothing, or one operation on the state without the stimulus that was taken. -/
theorem step_cases {s t : State} (h : step s = .next t) :
    t = s ∨ ∃ (left : List Waiting) (i : Instr), exec i { s with inbox := left } = .next t := by
  unfold step at h
  split at h
  · cases h; exact .inl rfl
  · exact .inr ⟨_, _, h⟩

/-- What every operation keeps and what does not look at the waiting stimuli, every step keeps. -/
theorem step_keeps {P : State → Prop} (hin : ∀ s left, P s → P { s with inbox := left })
    (hexec : ∀ s t, P s → Effect s t → P t) {s t : State} (hs : P s) (h : step s = .next t) : P t := by
  rcases step_cases h with rfl | ⟨left, i, h⟩
  · exact hs
  · exact hexec _ _ (hin s left hs) (exec_effect h)

end Sys2Proof.Machine
end

