-- ==== Sys2Proof/Laws/Trace.lean ====
section
/-! SUPPORT. What each view of an action list (timer actions, deliveries, ACK numbers, DATA frames) sees of each action and
of the action lists that steps make; and what each view of a trace sees of one more step. -/

namespace Sys2Proof.Machine

section timerActions
variable (as bs : List Action) (e : EntityId) (f p : Bytes) (d : Duration)
@[simp] theorem timerActions_nil : timerActions [] = [] := rfl
@[simp] theorem timerActions_append : timerActions (as ++ bs) = timerActions as ++ timerActions bs := List.filterMap_append
@[simp] theorem timerActions_ackFrame : timerActions (.transmit e true f :: as) = timerActions as := rfl
@[simp] theorem timerActions_dataFrame : timerActions (.transmit e false f :: as) = timerActions as := rfl
@[simp] theorem timerActions_deliver : timerActions (.deliver e p :: as) = timerActions as := rfl
@[simp] theorem timerActions_start : timerActions (.startTimer e d :: as) = .start :: timerActions as := rfl
@[simp] theorem timerActions_stop : timerActions (.stopTimer e :: as) = .stop :: timerActions as := rfl
end timerActions

section deliveredPayloads
variable (as bs : List Action) (e : EntityId) (f p : Bytes) (d : Duration)
@[simp] theorem deliveredPayloads_nil : deliveredPayloads [] = [] := rfl
@[simp] theorem deliveredPayloads_append : deliveredPayloads (as ++ bs) = deliveredPayloads as ++ deliveredPayloads bs := List.filterMap_append
@[simp] theorem deliveredPayloads_ackFrame : deliveredPayloads (.transmit e true f :: as) = deliveredPayloads as := rfl
@[simp] theorem deliveredPayloads_dataFrame : deliveredPayloads (.transmit e false f :: as) = deliveredPayloads as := rfl
@[simp] theorem deliveredPayloads_deliver : deliveredPayloads (.deliver e p :: as) = p :: deliveredPayloads as := rfl
@[simp] theorem deliveredPayloads_start : deliveredPayloads (.startTimer e d :: as) = deliveredPayloads as := rfl
@[simp] theorem deliveredPayloads_stop : deliveredPayloads (.stopTimer e :: as) = deliveredPayloads as := rfl
end deliveredPayloads

section ackNumbersOf
variable (as bs : List Action) (e : EntityId) (f p : Bytes) (d : Duration)
@[simp] theorem ackNumbersOf_nil : ackNumbersOf [] = [] := rfl
@[simp] theorem ackNumbersOf_append : ackNumbersOf (as ++ bs) = ackNumbersOf as ++ ackNumbersOf bs := List.filterMap_append
@[simp] theorem ackNumbersOf_ackFrame : ackNumbersOf (.transmit e true f :: as) = s32 (u32 f 2) :: ackNumbersOf as := rfl
@[simp] theorem ackNumbersOf_dataFrame : ackNumbersOf (.transmit e false f :: as) = ackNumbersOf as := rfl
@[simp] theorem ackNumbersOf_deliver : ackNumbersOf (.deliver e p :: as) = ackNumbersOf as := rfl
@[simp] theorem ackNumbersOf_start : ackNumbersOf (.startTimer e d :: as) = ackNumbersOf as := rfl
@[simp] theorem ackNumbersOf_stop : ackNumbersOf (.stopTimer e :: as) = ackNumbersOf as := rfl
end ackNumbersOf

section dataFrames
variable (as bs : List Action) (e : EntityId) (f p : Bytes) (d : Duration)
@[simp] theorem dataFrames_nil : dataFrames [] = [] := rfl
@[simp] theorem dataFrames_append : dataFrames (as ++ bs) = dataFrames as ++ dataFrames bs := List.filterMap_append
@[simp] theorem dataFrames_ackFrame : dataFrames (.transmit e true f :: as) = dataFrames as := rfl
@[simp] theorem dataFrames_dataFrame : dataFrames (.transmit e false f :: as) = f :: dataFrames as := rfl
@[simp] theorem dataFrames_deliver : dataFrames (.deliver e p :: as) = dataFrames as := rfl
@[simp] theorem dataFrames_start : dataFrames (.startTimer e d :: as) = dataFrames as := rfl
@[simp] theorem dataFrames_stop : dataFrames (.stopTimer e :: as) = dataFrames as := rfl
end dataFrames

@[simp] theorem timerActions_frames (e : EntityId) (fs : List (Nat × Bytes)) :
    timerActions (fs.map fun g => .transmit e false g.2) = [] := by induction fs <;> simp_all

@[simp] theorem timerActions_window (e : EntityId) (f : Nat → Bytes) (ns : List Nat) :
    timerActions (ns.map fun n => .transmit e false (f n)) = [] := by induction ns <;> simp_all

@[simp] theorem deliveredPayloads_frames (e : EntityId) (fs : List (Nat × Bytes)) :
    deliveredPayloads (fs.map fun g => .transmit e false g.2) = [] := by induction fs <;> simp_all

@[simp] theorem deliveredPayloads_window (e : EntityId) (f : Nat → Bytes) (ns : List Nat) :
    deliveredPayloads (ns.map fun n => .transmit e false (f n)) = [] := by induction ns <;> simp_all

@[simp] theorem ackNumbersOf_frames (e : EntityId) (fs : List (Nat × Bytes)) :
    ackNumbersOf (fs.map fun g => .transmit e false g.2) = [] := by induction fs <;> simp_all

@[simp] theorem ackNumbersOf_window (e : EntityId) (f : Nat → Bytes) (ns : List Nat) :
    ackNumbersOf (ns.map fun n => .transmit e false (f n)) = [] := by induction ns <;> simp_all

@[simp] theorem dataFrames_frames (e : EntityId) (fs : List (Nat × Bytes)) :
    dataFrames (fs.map fun g => .transmit e false g.2) = fs.map Prod.snd := by induction fs <;> simp_all

theorem timerActions_startActions (s : State) :
    timerActions (startActions s) = if s.timerRunning then [.stop, .start] else [.start] := by
  cases h : s.timerRunning <;> simp [startActions, h]

@[simp] theorem deliveredPayloads_startActions (s : State) : deliveredPayloads (startActions s) = [] := by
  cases h : s.timerRunning <;> simp [startActions, h]

@[simp] theorem ackNumbersOf_startActions (s : State) : ackNumbersOf (startActions s) = [] := by
  cases h : s.timerRunning <;> simp [startActions, h]

@[simp] theorem dataFrames_startActions (s : State) : dataFrames (startActions s) = [] := by
  cases h : s.timerRunning <;> simp [startActions, h]

theorem timerActions_drainActions (s : State) (emptied : Bool) (fs : List (Nat × Bytes)) :
    timerActions (drainActions s emptied fs) = if emptied && !fs.isEmpty then [.start] else [] := by
  cases fs <;> cases emptied <;> simp [drainActions]

@[simp] theorem deliveredPayloads_drainActions (s : State) (emptied : Bool) (fs : List (Nat × Bytes)) :
    deliveredPayloads (drainActions s emptied fs) = [] := by
  cases fs <;> cases emptied <;> simp [drainActions]

@[simp] theorem ackNumbersOf_drainActions (s : State) (emptied : Bool) (fs : List (Nat × Bytes)) :
    ackNumbersOf (drainActions s emptied fs) = [] := by
  cases fs <;> cases emptied <;> simp [drainActions]

@[simp] theorem dataFrames_drainActions (s : State) (emptied : Bool) (fs : List (Nat × Bytes)) :
    dataFrames (drainActions s emptied fs) = fs.map Prod.snd := by
  cases fs <;> cases emptied <;> simp [drainActions]

/-- The timer actions of an accepted ACK (41_sender R173): a STOP if a timer was outstanding, then a START exactly when a
packet is left or was drained. -/
theorem timerActions_afterAck (s : State) (B : Bytes) (m : Nat) :
    timerActions (afterAck s B m).out.actions =
      (if s.timerRunning then [.stop] else []) ++ if (afterAck s B m).timerRunning then [.start] else [] := by
  simp only [afterAck, timerActions_append, timerActions_drainActions]
  cases s.timerRunning <;> by_cases h : m + 1 = s.nextSeqNum <;>
    by_cases hf : (numberedFrames s.nextSeqNum (drained s m)).isEmpty = true <;> simp [h, hf]

@[simp] theorem deliveredPayloads_afterAck (s : State) (B : Bytes) (m : Nat) :
    deliveredPayloads (afterAck s B m).out.actions = [] := by
  simp only [afterAck, deliveredPayloads_append, deliveredPayloads_drainActions]
  split <;> split <;> rfl

@[simp] theorem ackNumbersOf_afterAck (s : State) (B : Bytes) (m : Nat) :
    ackNumbersOf (afterAck s B m).out.actions = [] := by
  simp only [afterAck, ackNumbersOf_append, ackNumbersOf_drainActions]
  split <;> split <;> rfl

theorem dataFrames_afterAck (s : State) (B : Bytes) (m : Nat) :
    dataFrames (afterAck s B m).out.actions = (numberedFrames s.nextSeqNum (drained s m)).map Prod.snd := by
  simp only [afterAck, dataFrames_append, dataFrames_drainActions]
  split <;> split <;> rfl

section trace
variable (tr : List TraceEntry) (e : TraceEntry)
@[simp] theorem timerEvents_append : timerEvents (tr ++ [e]) = timerEvents tr ++ entryTimerEvents e := by
  simp [timerEvents]
@[simp] theorem deliveries_append : deliveries (tr ++ [e]) =
    deliveries tr ++ (deliveredPayloads e.actions).map fun p => (goodPacket e.stimulus, p) := by
  simp [deliveries]
@[simp] theorem ackNumbers_append : ackNumbers (tr ++ [e]) = ackNumbers tr ++ ackNumbersOf e.actions := by
  simp [ackNumbers]
@[simp] theorem firstTransmissions_append : firstTransmissions (tr ++ [e]) =
    firstTransmissions tr ++ if e.stimulus = .timeout then [] else dataFrames e.actions := by
  simp [firstTransmissions]
@[simp] theorem submitted_append_submit (p : Bytes) (as : List Action) :
    submitted (tr ++ [⟨.submit p, as⟩]) = submitted tr ++ [p] := by simp [submitted]
@[simp] theorem submitted_append_rx (B : Bytes) (as : List Action) :
    submitted (tr ++ [⟨.rx B, as⟩]) = submitted tr := by simp [submitted]
@[simp] theorem submitted_append_timeout (as : List Action) :
    submitted (tr ++ [⟨.timeout, as⟩]) = submitted tr := by simp [submitted]
end trace

/-- The automaton reads a list in two parts. -/
theorem timerAutomaton_append (b : Bool) (es fs : List TimerEvent) :
    timerAutomaton b (es ++ fs) = (timerAutomaton b es).bind fun c => timerAutomaton c fs := by
  induction es generalizing b with
  | nil => rfl
  | cons e es ih => cases e <;> cases b <;> simp [timerAutomaton, ih]

/-- The walk reads a list in two parts. -/
theorem ackWalk_append (n : Int) (as bs : List Int) : ackWalk n (as ++ bs) = (ackWalk n as).bind fun m => ackWalk m bs := by
  induction as generalizing n with
  | nil => rfl
  | cons a as ih =>
    simp only [List.cons_append, ackWalk]
    split <;> simp [ih]

end Sys2Proof.Machine
end

