-- ==== Sys2Proof/Machine/TraceText.lean ====
section
/-! DEFINITION. A line of the trace as text, in the form that 30_encoding R107 gives for traces. It is a read-only view: no
step uses it. A payload of printable characters without a quotation mark is written in quotes, any other in hex. -/

namespace Sys2Proof.Machine

/-- A decimal digit or a hex digit above 9, as a character. -/
def digitChar (d : Nat) : Char :=
  ['0', '1', '2', '3', '4', '5', '6', '7', '8', '9', 'A', 'B', 'C', 'D', 'E', 'F'].getD d '?'

/-- The decimal digits of a number, at most `fuel` of them. -/
def decimalChars : Nat → Nat → List Char
  | 0, _ => []
  | fuel + 1, n => (if n < 10 then [] else decimalChars fuel (n / 10)) ++ [digitChar (n % 10)]

/-- An integer of the number field in decimal. -/
def numberText (n : Int) : List Char :=
  (if n < 0 then ['-'] else []) ++ decimalChars 10 n.natAbs

/-- The bytes as written, byte 0 first. -/
def hexText (B : Bytes) : List Char :=
  ['['] ++ (List.intercalate [' '] (B.map fun b => [digitChar (b.toNat / 16), digitChar (b.toNat % 16)])) ++ [']']

/-- Whether a byte can stand between quotation marks. -/
def isPrintable (b : Byte) : Bool := decide (32 ≤ b.toNat ∧ b.toNat ≤ 126 ∧ b.toNat ≠ 34)

/-- A payload. -/
def payloadText (p : Bytes) : List Char :=
  if p ≠ [] ∧ p.all isPrintable then ['"'] ++ p.map (fun b => Char.ofNat b.toNat) ++ ['"'] else hexText p

/-- A frame: by name when it is what `encode` makes of its own parts, else its bytes. -/
def frameText (B : Bytes) : List Char :=
  match decodeFrame B with
  | .fail _ => hexText B
  | .packet p =>
    if B = encodeFrame .data p.number p.payload then
      ['D', 'A', 'T', 'A', '('] ++ numberText p.number ++ [','] ++ payloadText p.payload ++ [')']
    else if B = encodeFrame .ack p.number [] then ['A', 'C', 'K', '('] ++ numberText p.number ++ [')']
    else hexText B

/-- An action. -/
def Action.text : Action → List Char
  | .transmit _ _ f => ['T', 'X', ' '] ++ frameText f
  | .deliver _ p => ['D', 'E', 'L', 'I', 'V', 'E', 'R', ' '] ++ payloadText p
  | .startTimer _ _ => ['S', 'T', 'A', 'R', 'T']
  | .stopTimer _ => ['S', 'T', 'O', 'P']

/-- A stimulus. -/
def Stimulus.text : Stimulus → List Char
  | .submit p => ['S', 'U', 'B', 'M', 'I', 'T', ' '] ++ payloadText p
  | .rx B => ['R', 'X', ' '] ++ frameText B
  | .timeout => ['T', 'I', 'M', 'E', 'O', 'U', 'T']

/-- The name of an entity (00_scope R10). -/
def entityChar : EntityId → Char
  | .A => 'A'
  | .B => 'B'

/-- The actions of a line. -/
def actionsText (as : List Action) : List Char :=
  if as = [] then ['(', 'n', 'o', 'n', 'e', ')'] else List.intercalate [';', ' '] (as.map Action.text)

/-- One line of the trace of entity `e`. -/
def TraceEntry.text (e : EntityId) (t : TraceEntry) : List Char :=
  [entityChar e, ':', ' '] ++ t.stimulus.text ++ [' ', '-', '>', ' '] ++ actionsText t.actions

end Sys2Proof.Machine
end

