-- ==== Sys2Proof/Tests/Slice0.lean ====
section
/-! SUPPORT. This model's own tests. The expected results are the vectors of spec/95_test_vectors.md and words written out by
hand from 30_encoding; each test names its source. At the end, witnesses: a concrete state and operands that meet the
hypotheses of each statement together, clause by clause. -/

namespace Sys2Proof.Tests

open Sys2Proof Sys2Proof.Machine

-- ==================== helpers ====================

/-- A configuration of a given window, queue depth and payload limit. -/
def cfgOf (w : Nat) (depth : Option Nat) (maxPayload : Nat) (h : 1 ≤ w ∧ w ≤ 2147483647 ∧ maxPayload ≤ 4294967295) :
    Config where
  windowSize := w
  timerInterval := ⟨7⟩
  entityId := .A
  maxPayload := maxPayload
  pendingDepth := depth
  windowSize_pos := h.1
  windowSize_le := h.2.1
  maxPayload_le := h.2.2

def cfg1 : Config := cfgOf 1 none 4294967295 (by decide)
def cfg2 : Config := cfgOf 2 none 4294967295 (by decide)
def cfg4 : Config := cfgOf 4 none 4294967295 (by decide)
/-- `MAX_PAYLOAD = 4`, `PENDING_DEPTH = 1`, `W = 1`. -/
def cfgSmall : Config := cfgOf 1 (some 1) 4 (by decide)

/-- A sender that holds a window of payloads from `base` up. -/
def senderState (c : Config) (base : Nat) (window queue : List Bytes) (run : Bool) : State :=
  { State.resetWith c with
    windowBase := base
    nextSeqNum := base + window.length
    unackedBuffer := numberedFrames base window
    pendingQueue := queue
    timerRunning := run }

/-- A receiver that expects `n`. -/
def receiverState (n : Nat) : State := { State.resetWith cfg2 with expectedSeqNum := n, lastAckNum := (n : Int) - 1 }

def after (o : Host.Outcome State Fault Refusal) : Option State :=
  match o with
  | .next s => some s
  | .fault _ => none
  | .refused _ => none

/-- base, next, key set, queue, run, as 95_test_vectors writes them, and the actions. -/
structure View where
  base    : Nat
  next    : Nat
  keys    : List Nat
  queue   : List Bytes
  run     : Bool
  actions : List Action
  deriving DecidableEq, Repr

def viewOf (t : State) : View :=
  ⟨t.windowBase, t.nextSeqNum, t.unackedBuffer.keys, t.pendingQueue, t.timerRunning, t.out.actions⟩

def hello : Bytes := [0x68, 0x65, 0x6C, 0x6C, 0x6F]
/-- F2a, `DATA(0,"hello")` -/
def frameHello : Bytes := [0x00, 0x80, 0, 0, 0, 0, 0xBB, 0xA8, 0, 0, 0, 0x05, 0x68, 0x65, 0x6C, 0x6C, 0x6F]
/-- F2m, `DATA(2147483647,"Z")` -/
def frameZ : Bytes := [0x00, 0x80, 0x7F, 0xFF, 0xFF, 0xFF, 0x25, 0x7F, 0, 0, 0, 0x01, 0x5A]
/-- `DATA(0,"a")` -/
def frameA : Bytes := [0x00, 0x80, 0, 0, 0, 0, 0x9E, 0x7E, 0, 0, 0, 0x01, 0x61]
/-- F2c, `ACK(0)` -/
def ack0 : Bytes := [0, 0, 0, 0, 0, 0, 0xFF, 0xFF, 0, 0, 0, 0]
/-- F2e, `ACK(2)` -/
def ack2 : Bytes := [0, 0, 0, 0, 0, 2, 0xFF, 0xFD, 0, 0, 0, 0]
/-- F2f, `ACK(-1)` -/
def sentinel : Bytes := [0, 0, 0xFF, 0xFF, 0xFF, 0xFF, 0, 0, 0, 0, 0, 0]

def start7 : Action := .startTimer .A ⟨7⟩
def stopA : Action := .stopTimer .A
def txData (f : Bytes) : Action := .transmit .A false f
def txAck (f : Bytes) : Action := .transmit .A true f

/-- A timer record, an undecodable record, a received frame, as they wait. -/
def timeoutWaits : Waiting := ⟨.stimulus, [0x03, 0, 0, 0, 0]⟩
def badWaits : Waiting := ⟨.stimulus, [0x03]⟩
def frameWaits (B : Bytes) : Waiting := ⟨.channel, B⟩

-- ==================== well-formedness: each check refuses an ill-formed term ====================

@[irreducible] def tooLong : Bytes := List.replicate 4294967296 0

theorem tooLong_length : tooLong.length = 4294967296 := by unfold tooLong; exact List.length_replicate

theorem test_wf_submit_too_long : (Instr.submit tooLong).wellFormed = false := by
  simp [Instr.wellFormed, fitsLen, tooLong_length]

theorem test_wf_rx_too_long : (Instr.rx tooLong).wellFormed = false := by
  simp [Instr.wellFormed, fitsLen, tooLong_length]

theorem test_wf_transmit_too_long : (Instr.transmit .A (isAckFrame tooLong) tooLong).wellFormed = false := by
  simp [Instr.wellFormed, fitsLen, tooLong_length]

theorem test_wf_transmit_is_ack_mismatch : (Instr.transmit .A false ack0).wellFormed = false := by decide

theorem test_wf_deliver_too_long : (Instr.deliver .B tooLong).wellFormed = false := by
  simp [Instr.wellFormed, fitsLen, tooLong_length]

theorem test_wf_encode_too_long : (Instr.frmEncode .data 0 tooLong).wellFormed = false := by
  simp [Instr.wellFormed, fitsLen, tooLong_length]

theorem test_wf_encode_number_too_large : (Instr.frmEncode .ack 2147483648 []).wellFormed = false := by decide

theorem test_wf_encode_number_too_small : (Instr.frmEncode .ack (-2147483649) []).wellFormed = false := by decide

theorem test_wf_decode_too_long : (Instr.frmDecode tooLong).wellFormed = false := by
  simp [Instr.wellFormed, fitsLen, tooLong_length]

theorem test_wf_verify_too_long : (Instr.frmVerify tooLong).wellFormed = false := by
  simp [Instr.wellFormed, fitsLen, tooLong_length]

theorem test_wf_accepts : (Instr.transmit .B true ack0).wellFormed = true ∧
    (Instr.frmEncode .ack (-2147483648) []).wellFormed = true ∧
    (Instr.frmEncode .data 2147483647 [0x5A]).wellFormed = true := by decide

-- ==================== decoding: a word written out for every constructor ====================
-- STIM (R102): op in bits 1:0, len in bits 33:2, the bytes from bit 34.

theorem test_decode_idle : decode ⟨.stim, [0x00, 0, 0, 0, 0]⟩ = .ok .idle := by decide

-- op 01, len 2 (bit 3), 0x61 at bits 41:34 and 0x62 at bits 49:42: 0x61 * 4 = 0x184, 0x62 * 4 = 0x188.
theorem test_decode_submit :
    decode ⟨.stim, [0x09, 0, 0, 0, 0x84, 0x89, 0x01]⟩ = .ok (.submit [0x61, 0x62]) := by decide

-- op 10, len 1 (bit 2), 0xFF at bits 41:34.
theorem test_decode_rx : decode ⟨.stim, [0x06, 0, 0, 0, 0xFC, 0x03]⟩ = .ok (.rx [0xFF]) := by decide

theorem test_decode_timeout : decode ⟨.stim, [0x03, 0, 0, 0, 0]⟩ = .ok .timeout := by decide

-- PKT (R91): bytes 0-1 kind, 2-5 number, 6-7 checksum, 8-11 length, big-endian.
theorem test_decode_pktAck :
    decode ⟨.pkt, [0x00, 0x00, 0xFF, 0xFF, 0xFF, 0xFE, 0x12, 0x34, 0, 0, 0x01, 0x02]⟩ =
      .ok (.pktAck 0xFFFFFFFE 0x1234 0x0102 []) := by decide

theorem test_decode_pktData : decode ⟨.pkt, frameHello⟩ = .ok (.pktData 0 0xBBA8 5 hello) := by decide

-- A kind other than 0x0000 and 0x0080 has no row (R92, R106): all 16 bits count.
theorem test_decode_pktUnknown :
    decode ⟨.pkt, [0x80, 0x80, 0, 0, 0, 0, 0, 0, 0, 0, 0, 0]⟩ = .ok (.rx [0x80, 0x80, 0, 0, 0, 0, 0, 0, 0, 0, 0, 0]) := by
  decide

-- ACT (R103): op 1:0, entity_id 2, is_ack 3, duration 35:4, len 67:36, the bytes from bit 68.
theorem test_decode_transmit :
    decode ⟨.act, [0x0C, 0, 0, 0, 0x20, 0, 0, 0, 0, 0, 0]⟩ = .ok (.transmit .B true [0, 0]) := by decide

theorem test_decode_deliver :
    decode ⟨.act, [0x01, 0, 0, 0, 0x10, 0, 0, 0, 0xF0, 0x0F]⟩ = .ok (.deliver .A [0xFF]) := by decide

theorem test_decode_startTimer :
    decode ⟨.act, [0x06, 0, 0, 0, 0x08, 0, 0, 0, 0]⟩ = .ok (.startTimer .B ⟨0x80000000⟩) := by decide

theorem test_decode_stopTimer : decode ⟨.act, [0x03, 0, 0, 0, 0, 0, 0, 0, 0]⟩ = .ok (.stopTimer .A) := by
  decide

-- FRM (R112): fn 1:0; ENCODE: tag 17:2, number 49:18, len 81:50, the bytes from bit 82.
theorem test_decode_frmEncode :
    decode ⟨.frm, [0x00, 0x00, 0xFC, 0xFF, 0xFF, 0xFF, 0x03, 0, 0, 0, 0]⟩ = .ok (.frmEncode .ack (-1) []) := by
  decide

theorem test_decode_frmDecode : decode ⟨.frm, [0x05, 0, 0, 0, 0x04, 0x02]⟩ = .ok (.frmDecode [0x81]) := by
  decide

theorem test_decode_frmVerify : decode ⟨.frm, [0x06, 0, 0, 0, 0x04, 0x02]⟩ = .ok (.frmVerify [0x81]) := by
  decide

/-- Every rejection, by name. -/
theorem test_decode_rejects :
    decode ⟨.stim, []⟩ = .error .lengthMismatch ∧
    decode ⟨.stim, [0x05, 0, 0, 0, 0]⟩ = .error .lengthMismatch ∧
    decode ⟨.stim, [0x03, 0, 0, 0, 0x80]⟩ = .error .paddingNotZero ∧
    decode ⟨.act, [0x0B, 0, 0, 0, 0, 0, 0, 0, 0]⟩ = .error .actFieldNotZero ∧
    decode ⟨.act, [0x00, 0, 0, 0, 0x20, 0, 0, 0, 0, 0, 0]⟩ = .error .isAckMismatch ∧
    decode ⟨.frm, [0x03]⟩ = .error .unusedSelect ∧
    decode ⟨.frm, [0x04, 0, 0, 0, 0, 0, 0, 0, 0, 0, 0]⟩ = .error .unknownKind := by decide

/-- Words of the opcode table: the `match` of IDLE, SUBMIT, RX, TIMEOUT, PKT.ACK and PKT.DATA. -/
theorem test_table_words :
    decodeTableWord 8 0 = some .idle ∧ decodeTableWord 8 1 = some (.submit []) ∧ decodeTableWord 8 2 = some (.rx []) ∧
    decodeTableWord 8 3 = some .timeout ∧ decodeTableWord 96 0 = some (.pktAck 0 0 0 []) ∧
    decodeTableWord 96 0x008000000000000000000000 = some (.pktData 0 0 0 []) := by decide

theorem test_table_word_runs :
    (after (step (State.reset.withFetchWord 8 3))).map (·.out.actions) = some [.startTimer .A ⟨0⟩] ∧
    (after (step (State.reset.withFetchWord 96 0))).map (·.out.rxClass) = some (some .ackCorrupt) := by decide

-- ==================== the framer (95_test_vectors F1 to F4) ====================

theorem test_fold16 :
    fold16 0 = 0 ∧ fold16 0xFFFF = 0xFFFF ∧ fold16 0x10000 = 1 ∧ fold16 0x1FFFF = 1 ∧ fold16 0xFFFFFFFF = 0xFFFF := by
  decide

/-- F2a, F2f, F2i. -/
theorem test_encode_vectors :
    (after (exec (.frmEncode .data 0 hello) State.reset)).map (·.out.framer) = some (some (.frame frameHello)) ∧
    encodeFrame .ack (-1) [] = sentinel ∧
    encodeFrame .data 0 [] = [0x00, 0x80, 0, 0, 0, 0, 0xFF, 0x7F, 0, 0, 0, 0] := by decide

/-- F2l, F2m, F2o. -/
theorem test_encode_corners :
    encodeFrame .data 3 [0xFF, 0xFF] = [0x00, 0x80, 0, 0, 0, 3, 0xFF, 0x7A, 0, 0, 0, 2, 0xFF, 0xFF] ∧
    encodeFrame .data 2147483647 [0x5A] = frameZ ∧
    encodeFrame .data 0 [0x78] = [0x00, 0x80, 0, 0, 0, 0, 0x87, 0x7E, 0, 0, 0, 1, 0x78] := by decide

/-- F4d, F4g, F4i, F4j. -/
theorem test_decode_vectors :
    (after (exec (.frmDecode (frameHello.take 14)) State.reset)).map (·.out.framer) =
      some (some (.decoded (.fail (some 128)))) ∧
    decodeFrame [0x00] = .fail none ∧
    decodeFrame (frameHello ++ [0, 0]) = .packet ⟨128, 0, 0xBBA8, 5, hello⟩ ∧
    decodeFrame [0x00, 0x01, 0, 0, 0, 0, 0xFF, 0xFE, 0, 0, 0, 0] = .packet ⟨1, 0, 0xFFFE, 0, []⟩ := by decide

/-- F3c, F3e, F3h, F3l, F3m. -/
theorem test_verify_vectors :
    (after (exec (.frmVerify [0, 0, 0, 0, 0, 4, 0xFF, 0xFF, 0, 0, 0, 0]) State.reset)).map (·.out.framer) =
      some (some (.verdict false)) ∧
    verify [0, 0, 0, 0, 0, 0, 0, 0, 0, 0, 0, 0] = false ∧ verify [0xFF, 0xFF] = true ∧
    verify [0, 0, 0, 0, 0, 0, 0xFF, 0xFE, 0, 0, 0, 0] = false ∧
    verify [0, 0, 0xFF, 0xFF, 0xFF, 0xFF, 0xFF, 0xFF, 0, 0, 0, 0] = true := by decide

-- ==================== one step of each operation ====================

/-- E11. -/
theorem test_idle : (after (exec .idle (receiverState 3))) = some (receiverState 3) := by decide

/-- S1. -/
theorem test_submit_sends :
    (after (exec (.submit hello) (State.resetWith cfg2))).map viewOf =
      some ⟨0, 1, [0], [], true, [txData frameHello, start7]⟩ := by decide

/-- S18 and S19: the last sequence number, and the end of the sequence space with room in the window. -/
theorem test_submit_end_of_sequence_space :
    (after (exec (.submit [0x5A]) (senderState cfg4 2147483647 [] [] false))).map viewOf =
      some ⟨2147483647, 2147483648, [2147483647], [], true, [txData frameZ, start7]⟩ ∧
    (after (exec (.submit [0x59]) (senderState cfg4 2147483647 [[0x5A]] [] true))).map viewOf =
      some ⟨2147483647, 2147483648, [2147483647], [[0x59]], true, []⟩ := by decide

/-- S15: the source's batch retransmission. -/
theorem test_timeout_resends :
    (after (exec .timeout (senderState cfg4 0 [[0x61], [0x62], [0x63]] [] true))).map viewOf =
      some ⟨0, 3, [0, 1, 2], [], true, [start7, txData frameA,
        txData [0x00, 0x80, 0, 0, 0, 1, 0x9D, 0x7D, 0, 0, 0, 1, 0x62],
        txData [0x00, 0x80, 0, 0, 0, 2, 0x9C, 0x7C, 0, 0, 0, 1, 0x63]]⟩ := by decide

/-- S16, S17: a TIMEOUT at an empty window, and the SUBMIT after it. -/
theorem test_timeout_empty :
    (after (exec .timeout (State.resetWith cfg2))).map viewOf =
      some ⟨0, 0, [], [], true, [start7]⟩ ∧
    (after (exec (.submit [0x61]) (senderState cfg2 0 [] [] true))).map (·.out.actions) =
      some [txData frameA, stopA, start7] := by decide

/-- S5: a cumulative ACK slides past three packets and drains three payloads. -/
theorem test_ack_drains :
    (after (exec (.pktAck 2 0xFFFD 0 []) (senderState cfg4 0 [[0x61], [0x62], [0x63], [0x64]] [[0x65], [0x66], [0x67]] true))).map viewOf =
      some ⟨3, 7, [3, 4, 5, 6], [], true, [stopA, start7,
        txData [0x00, 0x80, 0, 0, 0, 4, 0x9A, 0x7A, 0, 0, 0, 1, 0x65],
        txData [0x00, 0x80, 0, 0, 0, 5, 0x99, 0x79, 0, 0, 0, 1, 0x66],
        txData [0x00, 0x80, 0, 0, 0, 6, 0x98, 0x78, 0, 0, 0, 1, 0x67]]⟩ := by decide

/-- S14: the ACK empties the window; a bare START follows the drained frame. -/
theorem test_ack_empties :
    (after (exec (.pktAck 0 0xFFFF 0 []) (senderState cfg1 0 [[0x61]] [[0x62], [0x63]] true))).map viewOf =
      some ⟨1, 2, [1], [[0x63]], true,
        [stopA, txData [0x00, 0x80, 0, 0, 0, 1, 0x9D, 0x7D, 0, 0, 0, 1, 0x62], start7]⟩ := by decide

/-- V1. -/
theorem test_data_accept :
    (after (exec (.pktData 0 0xBBA8 5 hello) (State.resetWith cfg2))).map
        (fun t => (t.expectedSeqNum, t.lastAckNum, t.out.actions, t.out.rxClass)) =
      some (1, 0, [.deliver .A hello, txAck ack0], some .dataAccept) := by decide

/-- V7: a negative number is not the one expected; the sentinel goes out. -/
theorem test_data_negative :
    (after (exec (.pktData 0xFFFFFFFF 0x877E 1 [0x78]) (State.resetWith cfg2))).map
        (fun t => (t.expectedSeqNum, t.lastAckNum, t.out.actions, t.out.rxClass)) =
      some (0, -1, [txAck sentinel], some .dataUnexpected) := by decide

/-- E1, E5, E6: `verify` is true for the last two, and `decode` fails. -/
theorem test_rx_malformed :
    (after (exec (.rx []) (State.resetWith cfg2))).map (·.out) = some ⟨[], some .dropUnreadable, none⟩ ∧
    (after (exec (.rx [0x00, 0x80, 0xFF, 0x7F]) (State.resetWith cfg2))).map (·.out) =
      some ⟨[txAck sentinel], some .dataCorrupt, none⟩ ∧
    (after (exec (.rx [0xFF, 0xFF]) (State.resetWith cfg2))).map (·.out) = some ⟨[], some .dropUnknownKind, none⟩ := by
  decide

/-- E9, E10: a damaged ACK taken for DATA, and damaged DATA taken for an ACK. -/
theorem test_rx_misrouted :
    (after (exec (.rx [0x00, 0x80, 0, 0, 0, 0, 0xFF, 0xFF, 0, 0, 0, 0]) (senderState cfg2 0 [[0x61]] [] true))).map
        (fun t => (viewOf t, t.out.rxClass)) =
      some (⟨0, 1, [0], [], true, [txAck sentinel]⟩, some .dataCorrupt) ∧
    (after (exec (.rx [0, 0, 0, 0, 0, 0, 0x9E, 0x7E, 0, 0, 0, 1, 0x61]) (senderState cfg2 0 [[0x61]] [] true))).map
        (fun t => (viewOf t, t.out.rxClass)) =
      some (⟨0, 1, [0], [], true, []⟩, some .ackCorrupt) := by decide

/-- 43_entity R240: actions join the list in order. -/
theorem test_actions :
    (after (exec (.stopTimer .B) { State.reset with out := ⟨[start7], none, none⟩ })).map (·.out.actions) =
      some [start7, .stopTimer .B] ∧
    (after (exec (.transmit .A true ack0) State.reset)).map (·.out.actions) = some [txAck ack0] ∧
    (after (exec (.deliver .A hello) State.reset)).map (·.out.actions) = some [.deliver .A hello] ∧
    (after (exec (.startTimer .B ⟨9⟩) State.reset)).map (·.out.actions) = some [.startTimer .B ⟨9⟩] := by decide

/-- S22 and S23: not admitted, so it goes on waiting and the one behind it is taken. -/
theorem test_submit_waits :
    (after (step { senderState cfgSmall 0 [[0x61]] [[0x62]] true with
        inbox := [⟨.stimulus, [0x05, 0, 0, 0, 0x8C, 0x01]⟩, frameWaits ack0] })).map (fun t => (viewOf t, t.inbox)) =
      some (⟨1, 2, [1], [], true, [stopA, txData [0x00, 0x80, 0, 0, 0, 1, 0x9D, 0x7D, 0, 0, 0, 1, 0x62], start7]⟩,
        [⟨.stimulus, [0x05, 0, 0, 0, 0x8C, 0x01]⟩]) ∧
    (State.resetWith cfgSmall).submitAdmitted hello = false := by decide

/-- A line of program P2, in the form of 30_encoding R107. -/
theorem test_trace_text :
    TraceEntry.text .A ⟨.rx sentinel, [txData frameA, start7]⟩ =
      ['A', ':', ' ', 'R', 'X', ' ', 'A', 'C', 'K', '(', '-', '1', ')', ' ', '-', '>', ' ', 'T', 'X', ' ', 'D', 'A', 'T', 'A',
        '(', '0', ',', '"', 'a', '"', ')', ';', ' ', 'S', 'T', 'A', 'R', 'T'] := by decide

-- ==================== witnesses: concrete states that meet the hypotheses of the statements ====================

/-- Memory at reset has its canonical form. -/
theorem test_reset_memory_wf : Memory.wf State.reset.unackedBuffer := by decide

/-- A state in the middle of a run: `SUBMIT "a"` and `SUBMIT "b"` with `W = 1`, and an ACK(0) waits. -/
def busy : State :=
  { senderState cfg1 0 [[0x61]] [[0x62]] true with
    trace := [⟨.submit [0x61], [txData frameA, start7]⟩, ⟨.submit [0x62], []⟩]
    inbox := [frameWaits ack0] }

theorem frameA_eq : encodeFrame .data 0 [0x61] = frameA := by decide

theorem busy_buffer : busy.unackedBuffer = [(0, frameA)] := by decide

theorem witness_inv_busy : Inv busy where
  base_le_next := by decide
  next_le_window := by decide
  next_le_max := by decide
  domain := by decide
  frames := by
    intro n f h
    rw [busy_buffer, Memory.read] at h
    split at h
    · rename_i hn
      subst hn
      cases h
      exact ⟨[0x61], by decide, frameA_eq.symm⟩
    · cases h
  pending_blocked := by decide
  pending_length := by decide
  pending_depth := fun d h => nomatch (show (none : Option Nat) = some d from h)
  timer := by decide
  expected_le_max := by decide
  last_ack := by decide

theorem witness_own_busy : OwnTrace busy := by
  intro e he a ha
  simp only [busy, List.mem_cons, List.not_mem_nil, or_false] at he
  rcases he with rfl | rfl
  · simp only [List.mem_cons, List.not_mem_nil, or_false] at ha
    rcases ha with rfl | rfl
    · exact ⟨rfl, 0, [0x61], by decide, by decide, frameA_eq.symm⟩
    · exact ⟨rfl, rfl⟩
  · cases ha

/-- All the trace rules hold in `busy`, and a step goes on from there: the hypotheses of every statement about a step. -/
theorem witness_good_busy : Good busy where
  inv := witness_inv_busy
  timer := by unfold TimerDiscipline; decide
  delivery := by
    refine ⟨by decide, fun k d h => ?_⟩
    rw [show deliveries busy.trace = [] by decide] at h
    cases h
  acks := by unfold AckOrder; decide
  submission := by unfold SubmissionOrder; decide
  own := witness_own_busy

theorem witness_step_busy : ∃ t, step busy = .next t ∧ t.windowBase = 1 ∧ t.nextSeqNum = 2 ∧ t.pendingQueue = [] ∧
    t.inbox = [] ∧ t.trace.length = 3 := ⟨_, rfl, by decide, by decide, by decide, by decide, by decide⟩

/-- StepRunsTheDecodedOperation, its four cases; TakesTheFirstReadyStimulus. -/
theorem witness_step :
    busy.takeNext busy.inbox = some (.pktAck 0 0xFFFF 0 [], []) ∧
    decode (frameWaits ack0).record = .ok (.pktAck 0 0xFFFF 0 []) ∧
    busy.admits (.pktAck 0 0xFFFF 0 []) = true ∧
    decode badWaits.record = .error .lengthMismatch ∧
    decode (frameWaits (List.replicate 17 0)).record = .ok (.pktAck 0 0 0 (List.replicate 5 0)) ∧
    (State.resetWith cfgSmall).admits (.pktAck 0 0 0 (List.replicate 5 0)) = false ∧
    (State.resetWith cfgSmall).takeNext [frameWaits (List.replicate 17 0), badWaits, timeoutWaits] =
      some (.timeout, [frameWaits (List.replicate 17 0), badWaits]) := by decide

/-- TableWordRunsNext. -/
theorem witness_table_word :
    decodeTableWord 8 3 = some .timeout ∧ State.reset.admits .timeout = true ∧
    decodeTableWord 96 0x008000000000FF7F00000000 = some (.pktData 0 0xFF7F 0 []) ∧
    State.reset.admits (.pktData 0 0xFF7F 0 []) = true := by decide

/-- DecodeUndoesEncode and DecodedIsWellFormed: a record of each format, at the ends of the number range. -/
theorem witness_encoding :
    (Instr.frmEncode .ack (-2147483648) []).wellFormed = true ∧ (Instr.rx [0xFF]).wellFormed = true ∧
    (Instr.pktAck 0x80000000 0 0xFFFFFFFF []).wellFormed = true ∧ (Instr.startTimer .B ⟨0xFFFFFFFF⟩).wellFormed = true ∧
    decode ⟨.pkt, ack0⟩ = .ok (.pktAck 0 0xFFFF 0 []) ∧ ack0.length < 4294967296 ∧
    decode ⟨.frm, [0x02, 0, 0, 0, 0]⟩ = .ok (.frmVerify []) := by decide

/-- EndAroundFoldLaws and ChecksumSumLaws: the ends of each range. -/
theorem witness_fold : 65535 ≤ 65535 ∧ 65535 < 65536 ∧ 0 < 1 ∧ (∀ w ∈ [65535, 65535, 0], w ≤ 65535) ∧
    (words [1, 2, 3, 4]).Perm (words [3, 4, 1, 2]) ∧ (∀ b ∈ ([0, 0, 0] : Bytes), b = 0) := by decide

/-- FreshFramesVerify, FramerRoundTrip, EncodeCallAnswersTheFrame: the ends of the number range. -/
theorem witness_framer : (-2147483648 : Int) ≤ -2147483648 ∧ (-2147483648 : Int) < 2147483648 ∧
    (-2147483648 : Int) ≤ 2147483647 ∧ (2147483647 : Int) < 2147483648 ∧ hello.length < 4294967296 := by decide

/-- SingleBitFlipIsDetected: the first and the last bit. -/
theorem witness_flip : verify sentinel = true ∧ 0 < sentinel.length ∧ 0 < 8 ∧ 11 < sentinel.length ∧ 7 < 8 ∧
    verify (flipBit sentinel 11 7) = false := by decide

/-- DamageThatVerifyCannotSee: F3n, F3m, F3j. -/
theorem witness_damage :
    (words [0x61, 0x62, 0x63, 0x64]).Perm (words [0x63, 0x64, 0x61, 0x62]) ∧
    words sentinel = [0, 65535, 65535] ++ 0 :: [0, 0] ∧
    words [0, 0, 0xFF, 0xFF, 0xFF, 0xFF, 0xFF, 0xFF, 0, 0, 0, 0] = [0, 65535, 65535] ++ 65535 :: [0, 0] ∧
    0 < (words sentinel).sum ∧ decodeFrame sentinel = .packet ⟨0, -1, 0, 0, []⟩ := by decide

/-- DecodeAndVerifyCallsAnswer: a byte sequence on each side of each length test, and a sum that is nearly all ones. -/
theorem witness_decode : ([0] : Bytes).length < 2 ∧ 2 ≤ ([0, 0] : Bytes).length ∧ (ack0.take 11).length < 12 ∧
    12 ≤ (frameHello.take 16).length ∧ (frameHello.take 16).length < 12 + u32 (frameHello.take 16) 8 ∧
    12 + u32 frameHello 8 ≤ frameHello.length ∧
    ocsum [0xFF, 0xFB] = 65531 ∧ ocsum [0xFF, 0xFE] = 65534 := by decide

/-- SubmitWithRoomSends, TimeoutAtAnEmptyWindow (the last sequence number, an empty window, a timer running). -/
theorem witness_submit_room :
    let s := senderState cfg4 2147483647 [] [] true
    hello.length ≤ s.cfg.maxPayload ∧ s.hasRoom = true ∧ s.windowBase = s.nextSeqNum ∧ s.timerRunning = true := by decide

/-- SubmitWithoutRoomQueues, and the first clause of SequenceSpaceEnds. -/
theorem witness_submit_full :
    busy.submitAdmitted [0x63] = true ∧ busy.hasRoom = false ∧
    (senderState cfg4 2147483647 [[0x5A]] [] true).nextSeqNum = 2147483648 ∧
    (senderState cfg4 2147483647 [[0x5A]] [] true).submitAdmitted [0x59] = true := by decide

/-- The second clause of SequenceSpaceEnds. -/
theorem witness_receiver_end :
    (receiverState 2147483648).expectedSeqNum = 2147483648 ∧ (receiverState 2147483648).frameAdmitted frameZ = true := by
  decide

/-- StimulusNotAdmittedChangesNothing: a payload one byte too long, a queue at its depth, a frame one byte too long. -/
theorem witness_not_admitted :
    (State.resetWith cfgSmall).submitAdmitted hello = false ∧
    (senderState cfgSmall 0 [[0x61]] [[0x62]] true).submitAdmitted [0x63] = false ∧
    12 + (State.resetWith cfgSmall).cfg.maxPayload < (frameHello).length ∧
    (State.resetWith cfgSmall).cfg.maxPayload < hello.length := by decide

/-- TimeoutResendsTheWindow. -/
theorem witness_timeout : ∀ n, busy.windowBase ≤ n → n < busy.nextSeqNum → (busy.unackedBuffer.read n).isSome = true := by
  intro n h1 h2
  have : n = 0 := by
    have : busy.nextSeqNum = 1 := by decide
    omega
  subst this
  decide

/-- AckNotAcceptedChangesNothing: a bad sum; a short payload; the number just below the base; the number just at the next
sequence number, with an empty window too. -/
theorem witness_ack_ignored :
    verify (packetBytes .ack 4 0xFFFF 0 []) = false ∧ ([] : Bytes).length < (1 : BitVec 32).toNat ∧
    verify (packetBytes .ack 0xFFFFFFFF 0 0 []) = true ∧
    (0xFFFFFFFF : BitVec 32).toInt < (busy.windowBase : Int) ∧
    verify (packetBytes .ack 1 0xFFFE 0 []) = true ∧
    (busy.windowBase : Int) ≤ (1 : BitVec 32).toInt ∧ (busy.nextSeqNum : Int) ≤ (1 : BitVec 32).toInt ∧
    verify (packetBytes .ack 0 0xFFFF 0 []) = true ∧
    (State.reset.nextSeqNum : Int) ≤ (0 : BitVec 32).toInt := by decide

/-- AckAcceptedSlidesAndDrains: the lowest and the highest number of a window of two, the last sequence number of all. -/
theorem witness_ack_accepted :
    let s := senderState cfg4 0 [[0x61], [0x62]] [] true
    let u := senderState cfg4 2147483647 [[0x5A]] [] true
    verify (packetBytes .ack 0 0xFFFF 0 []) = true ∧ (0 : BitVec 32).toInt = ((0 : Nat) : Int) ∧ s.windowBase ≤ 0 ∧
    0 < s.nextSeqNum ∧
    verify (packetBytes .ack 1 0xFFFE 0 []) = true ∧ (1 : BitVec 32).toInt = ((1 : Nat) : Int) ∧ 1 < s.nextSeqNum ∧
    verify (packetBytes .ack 0x7FFFFFFF 0x8000 0 []) = true ∧ (0x7FFFFFFF : BitVec 32).toInt = ((2147483647 : Nat) : Int) ∧
    u.windowBase ≤ 2147483647 ∧ 2147483647 < u.nextSeqNum := by decide

/-- DataAcceptedDeliversAndAcks: the first and the last sequence number. -/
theorem witness_data_accepted :
    verify (packetBytes .data 0 0xBBA8 5 hello) = true ∧ (5 : BitVec 32).toNat ≤ hello.length ∧
    (0 : BitVec 32).toInt = (State.reset.expectedSeqNum : Int) ∧
    verify (packetBytes .data 0x7FFFFFFF 0x257F 1 [0x5A]) = true ∧
    (0x7FFFFFFF : BitVec 32).toInt = ((receiverState 2147483647).expectedSeqNum : Int) := by decide

/-- DataRejectedResendsTheLastAck and SentinelAckOnTheWire: a flipped bit (V4), a short payload, a number one too high (V3),
and for the sentinel a header cut short whose sum is good (E5). -/
theorem witness_data_rejected :
    State.reset.lastAckNum = -1 ∧
    verify (packetBytes .data 0 0xBBA8 5 [0x69, 0x65, 0x6C, 0x6C, 0x6F]) = false ∧
    [0x68, 0x65].length < (5 : BitVec 32).toNat ∧
    verify (packetBytes .data 1 0xFF7E 0 []) = true ∧ (1 : BitVec 32).toInt ≠ (State.reset.expectedSeqNum : Int) ∧
    State.reset.frameAdmitted [0x00, 0x80, 0xFF, 0x7F] = true ∧ frameTag [0x00, 0x80, 0xFF, 0x7F] = some 128 ∧
    verify [0x00, 0x80, 0xFF, 0x7F] = true ∧ decodeFrame [0x00, 0x80, 0xFF, 0x7F] = .fail (some 128) ∧
    frameTag (packetBytes .data 1 0xFF7E 0 []) = some 128 ∧
    decodeFrame (packetBytes .data 1 0xFF7E 0 []) = .packet ⟨128, 1, 0xFF7E, 0, []⟩ := by decide

/-- DuplicateIsNeverDeliveredAgain: number 0 when 1 is expected. -/
theorem witness_duplicate :
    (receiverState 1).frameAdmitted frameHello = true ∧ decodeFrame frameHello = .packet ⟨128, 0, 0xBBA8, 5, hello⟩ ∧
    (0 : Int) < ((receiverState 1).expectedSeqNum : Int) := by decide

/-- MalformedFramesAreAbsorbed: each clause, the shortest input it takes. -/
theorem witness_malformed :
    State.reset.frameAdmitted [0] = true ∧ ([0] : Bytes).length < 2 ∧
    u16 [0, 1] 0 ≠ 0 ∧ u16 [0, 1] 0 ≠ 128 ∧
    u16 [0, 0] 0 = 0 ∧ decodeFrame [0, 0] = .fail (some 0) ∧
    u16 [0, 0x80] 0 = 128 ∧ decodeFrame [0, 0x80] = .fail (some 128) := by decide

/-- EveryRxEndsInItsClass: an input of each class. -/
theorem witness_classes :
    rxClassOf busy ack0 = .ackAccept ∧ rxClassOf busy sentinel = .ackStale ∧ rxClassOf State.reset ack0 = .ackAhead ∧
    rxClassOf busy [0, 0] = .ackCorrupt ∧ rxClassOf busy frameHello = .dataAccept ∧
    rxClassOf (receiverState 1) frameHello = .dataUnexpected ∧ rxClassOf busy [0, 0x80] = .dataCorrupt ∧
    rxClassOf busy [0, 1] = .dropUnknownKind ∧ rxClassOf busy [0] = .dropUnreadable ∧
    busy.frameAdmitted ack0 = true ∧ busy.timerRunning = true := by decide

/-- NothingFaults: from a good state with a record that is no operation in front, the step goes on with what waits behind. -/
theorem witness_undecodable : Inv { busy with inbox := [badWaits, frameWaits ack0] } ∧
    (after (step { busy with inbox := [badWaits, frameWaits ack0] })).map (fun t => (viewOf t, t.inbox)) =
      some (⟨1, 2, [1], [], true, [stopA, txData [0x00, 0x80, 0, 0, 0, 1, 0x9D, 0x7D, 0, 0, 0, 1, 0x62], start7]⟩,
        [badWaits]) :=
  ⟨{ witness_inv_busy with }, by decide⟩

/-- OwnFramesVerify: both shapes of frame, at the ends of their numbers. -/
theorem witness_own_action : OwnAction cfg1 (.transmit .A true sentinel) ∧ OwnAction cfg1 (.transmit .A false frameZ) :=
  ⟨⟨rfl, -1, by decide, by decide, by decide⟩, ⟨rfl, 2147483647, [0x5A], by decide, by decide, by decide⟩⟩

/-- TimerActionsPerStep and ActionsPerStepAreBounded, from `busy` where `Inv` holds: each kind of step completes, and the
accepted ACK makes `2 + window_size` actions. -/
theorem witness_steps :
    isStepOp (.rx ack0) = true ∧ busy.admits (.rx ack0) = true ∧
    (after (exec (.rx ack0) busy)).map (·.out.actions.length) = some (2 + busy.cfg.windowSize) ∧
    (after (exec (.submit [0x63]) busy)).isSome = true ∧ (after (exec .timeout busy)).isSome = true := by decide

/-- SequencersNeverDecrease and ParametersNeverChange: an operation that moves each register. -/
theorem witness_sequencers :
    (after (exec (.pktAck 0 0xFFFF 0 []) busy)).map (·.windowBase) = some 1 ∧
    (after (exec (.submit [0x61]) State.reset)).map (·.nextSeqNum) = some 1 ∧
    (after (exec (.pktData 0 0xBBA8 5 hello) busy)).map (·.expectedSeqNum) = some 1 := by decide

/-- SenderAndReceiverAreDisjoint: a next state of each operation it names. -/
theorem witness_disjoint :
    (after (exec .timeout busy)).map (·.expectedSeqNum) = some busy.expectedSeqNum ∧
    (after (exec (.pktAck 0 0xFFFF 0 []) (withReceiver busy 5 4))).map (·.windowBase) = some 1 ∧
    (after (exec (.pktData 0 0xBBA8 5 hello) (withSenderOf State.reset busy))).map (·.lastAckNum) = some 0 := by decide

/-- StepKeepsBufferCanonical and WindowKeysNeverShareASlot: a window of four keys, whose slots are all different. -/
theorem witness_buffer :
    let s := senderState cfg4 3 [[0x64], [0x65], [0x66], [0x67]] [] true
    Memory.wf s.unackedBuffer ∧ s.unackedBuffer.keys.map (slotOf s.cfg.windowSize) = [3, 0, 1, 2] ∧
    (after (exec (.pktAck 3 0xFFFC 0 []) s)).map (·.unackedBuffer.keys) = some [4, 5, 6] := by decide

/-- ReferenceMuxIsOneOrder: RX, then TIMEOUT, then SUBMIT, and the records decode to these. -/
theorem witness_mux :
    ({ State.reset with inbox := [⟨.stimulus, [0x01, 0, 0, 0, 0]⟩, timeoutWaits, frameWaits ack0] }).arbitrateReference.inbox =
      [frameWaits ack0, timeoutWaits, ⟨.stimulus, [0x01, 0, 0, 0, 0]⟩] ∧
    decode (frameWaits ack0).record = .ok (.pktAck 0 0xFFFF 0 []) ∧ decode timeoutWaits.record = .ok .timeout ∧
    decode (Waiting.record ⟨.stimulus, [0x01, 0, 0, 0, 0]⟩) = .ok (.submit []) := by decide

/-- StatusPortReportsTheState: a step of each kind completes, and what the port reads after it (S12, S19, S18). -/
theorem witness_status :
    (after (exec (.rx ack0) State.reset)).map (·.statusView) =
      some ⟨0, 0, 0, -1, false, 0, true, true, false, false, false, some 2⟩ ∧
    (after (exec (.submit [0x59]) (senderState cfg4 2147483647 [[0x5A]] [] true))).map (·.statusView) =
      some ⟨2147483647, 2147483648, 0, -1, true, 1, false, false, true, true, true, none⟩ ∧
    (after (exec .timeout busy)).map (·.statusView.rxClass) = some none ∧
    busy.frameAdmitted ack0 = true ∧ busy.submitAdmitted [0x63] = true := by decide

end Sys2Proof.Tests
end

/-! PROOF. The parameters (00_scope R10, 10_state R26, R27, R33) are constants: each effect of an operation leaves the
configuration as it is. -/

namespace Sys2Proof.Machine

@[simp] theorem afterAck_cfg (s : State) (B : Bytes) (m : Nat) : (afterAck s B m).cfg = s.cfg := rfl

theorem RxEffect.cfg_eq {s t : State} {B : Bytes} (h : RxEffect s B t) : t.cfg = s.cfg := by
  cases h with
  | absorbed => rfl
  | acked m => exact afterAck_cfg s B m
  | rejected => rfl
  | accepted => rfl

theorem Effect.cfg_eq {s t : State} (h : Effect s t) : t.cfg = s.cfg := by
  cases h with
  | quiet => rfl
  | sent => rfl
  | queued => rfl
  | timedOut => rfl
  | received _ _ hrx => exact hrx.cfg_eq

theorem exec_cfg {i : Instr} {s t : State} (h : exec i s = .next t) : t.cfg = s.cfg :=
  (exec_effect h).cfg_eq

/-- Taking a stimulus out of the inbox writes no parameter either, so a step inherits the fact from its operation. -/
theorem step_cfg {s t : State} (h : step s = .next t) : t.cfg = s.cfg :=
  step_keeps (P := fun u => u.cfg = s.cfg) (fun _ _ hu => hu) (fun _ _ hu he => he.cfg_eq.trans hu) rfl h

/-- Settles O45: every effect of an operation, and so every step, leaves the configuration alone. -/
theorem parametersNeverChange : Obligations.ParametersNeverChange :=
  ⟨fun _ _ _ => exec_cfg, fun _ _ => step_cfg⟩

end Sys2Proof.Machine

/-! PROOF. The invariants of the sender and the receiver, and the order of submission (10_state R22 to R31, R40, 41_sender
R168, R174, R180): they hold at reset, and each effect of an operation keeps them. -/

namespace Sys2Proof.Machine

/-- Settles O33: at reset the window and the queue are empty. -/
theorem invariantsHoldAtReset : Obligations.InvariantsHoldAtReset := fun c => {
  base_le_next := le_rfl
  next_le_window := Nat.zero_le _
  next_le_max := by simp
  domain := rfl
  frames := by simp
  pending_blocked := by simp
  pending_length := by simp
  pending_depth := by simp
  timer := by simp
  expected_le_max := by simp
  last_ack := by simp }

/-- Settles O36: at reset nothing has happened, so every view of the trace is empty. -/
theorem traceRulesHoldAtReset : Obligations.TraceRulesHoldAtReset := fun c => {
  inv := invariantsHoldAtReset c
  timer := rfl
  delivery := ⟨rfl, by simp [deliveries]⟩
  acks := rfl
  submission := ⟨le_rfl, rfl, rfl⟩
  own := by simp [OwnTrace] }

/-- The invariants speak of the registers and the stores alone. -/
theorem Inv.with_outputs {s : State} (h : Inv s) (o : Output) (tr : List TraceEntry) (box : List Waiting) :
    Inv { s with out := o, trace := tr, inbox := box } := { h with }

/-- While there is room, nothing waits in the queue (10_state R40 (b)). -/
theorem Inv.queue_empty_of_room {s : State} (h : Inv s) (hr : s.hasRoom = true) : s.pendingQueue = [] := by
  by_contra hq
  simp [h.pending_blocked hq] at hr

/-- Every stored frame has a key below `next_seq_num` (10_state R24). -/
theorem Inv.key_lt_next {s : State} (h : Inv s) : ∀ j ∈ s.unackedBuffer.keys, j < s.nextSeqNum := by
  intro j hj
  rw [h.domain, List.mem_range'_1] at hj
  omega

theorem Inv.sent {s : State} (h : Inv s) {p : Bytes} (hp : p.length ≤ s.cfg.maxPayload) (hr : s.hasRoom = true)
    (o : Output) (tr : List TraceEntry) :
    Inv { s with
      nextSeqNum := s.nextSeqNum + 1
      unackedBuffer := s.unackedBuffer.write s.nextSeqNum (newFrame s p)
      timerRunning := s.timerRunning || s.windowEmpty
      out := o
      trace := tr } := by
  have hbase := h.base_le_next
  obtain ⟨hwindow, hmax⟩ := s.hasRoom_iff.1 hr
  exact { h with
    base_le_next := by simp only; omega
    next_le_window := hwindow
    next_le_max := by simp only; omega
    domain := by
      simp only [Memory.keys_write_append _ h.key_lt_next, h.domain, Nat.succ_sub hbase, Nat.succ_eq_add_one,
        List.range'_1_concat, Nat.add_sub_cancel' hbase]
    frames := by
      intro n f hf
      rw [Memory.read_write] at hf
      split at hf
      · rename_i hn
        cases hf
        exact ⟨p, hp, by rw [hn]; rfl⟩
      · exact h.frames n f hf
    pending_blocked := fun hq => absurd (h.queue_empty_of_room hr) hq
    timer := by
      intro _
      by_cases he : s.windowBase = s.nextSeqNum
      · simp [State.windowEmpty, he]
      · simp [h.timer he] }

theorem Inv.queued {s : State} (h : Inv s) {p : Bytes} (hp : s.submitAdmitted p = true) (hr : s.hasRoom = false)
    (o : Output) (tr : List TraceEntry) :
    Inv { s with pendingQueue := s.pendingQueue ++ [p], out := o, trace := tr } := by
  simp only [State.submitAdmitted, hr, Bool.false_or, Bool.and_eq_true, decide_eq_true_eq] at hp
  obtain ⟨hlength, hbelow⟩ := hp
  exact { h with
    pending_blocked := fun _ => hr
    pending_length := by
      intro q hq
      rcases List.mem_append.1 hq with hq | hq
      · exact h.pending_length q hq
      · rw [List.mem_singleton.1 hq]; exact hlength
    pending_depth := by
      intro depth hd
      replace hd : s.cfg.pendingDepth = some depth := hd
      simpa [State.pendingBelowDepth, hd] using hbelow }

/-- A payload that an ACK drains was waiting in the queue. -/
theorem mem_queue_of_mem_drained {s : State} {m : Nat} {p : Bytes} (h : p ∈ drained s m) : p ∈ s.pendingQueue :=
  List.mem_of_mem_take h

theorem drained_length (s : State) (m : Nat) :
    (drained s m).length = min (roomFrom s (m + 1)) s.pendingQueue.length := List.length_take

theorem numberedFrames_isEmpty (a : Nat) (ps : List Bytes) : (numberedFrames a ps).isEmpty = ps.isEmpty := by
  cases ps with
  | nil => rfl
  | cons p ps => rw [numberedFrames_cons]; rfl

/-- The keys of `UB` after an accepted ACK for `m`: what the eviction leaves, then those of the drained payloads. -/
theorem keys_afterAck {s : State} (h : Inv s) (B : Bytes) {m : Nat} (h1 : s.windowBase ≤ m) (h2 : m < s.nextSeqNum) :
    (afterAck s B m).unackedBuffer.keys =
      List.range' (m + 1) (s.nextSeqNum + (drained s m).length - (m + 1)) := by
  have hbase := h.base_le_next
  have hkeys : (s.unackedBuffer.evictBelow (m + 1)).keys = List.range' (m + 1) (s.nextSeqNum - (m + 1)) := by
    rw [Memory.keys_evictBelow, h.domain, filter_range' _ _ _ (by omega) (by omega), Nat.add_sub_cancel' hbase]
  have hbelow : ∀ j ∈ (s.unackedBuffer.evictBelow (m + 1)).keys, j < s.nextSeqNum := by
    intro j hj
    rw [hkeys, List.mem_range'_1] at hj
    omega
  calc (afterAck s B m).unackedBuffer.keys
      = List.range' (m + 1) (s.nextSeqNum - (m + 1)) ++ List.range' s.nextSeqNum (drained s m).length := by
        rw [← hkeys]; exact keys_foldl_write _ _ _ hbelow
    _ = List.range' (m + 1) (s.nextSeqNum - (m + 1)) ++
          List.range' (m + 1 + (s.nextSeqNum - (m + 1))) (drained s m).length := by
        rw [Nat.add_sub_cancel' h2]
    _ = List.range' (m + 1) (s.nextSeqNum + (drained s m).length - (m + 1)) := by
        rw [List.range'_append_1]; congr 1; omega

theorem Inv.acked {s : State} (h : Inv s) (B : Bytes) {m : Nat} (h1 : s.windowBase ≤ m) (h2 : m < s.nextSeqNum) :
    Inv (afterAck s B m) := by
  have hlen := drained_length s m
  have hwindow := h.next_le_window
  have hmax := h.next_le_max
  have hroom : roomFrom s (m + 1) = min (m + 1 + s.cfg.windowSize) 2147483648 - s.nextSeqNum := rfl
  exact {
    base_le_next := by simp only [afterAck]; omega
    next_le_window := by simp only [afterAck]; omega
    next_le_max := by simp only [afterAck]; omega
    domain := keys_afterAck h B h1 h2
    frames := by
      intro n f hf
      rcases read_foldl_write _ _ _ _ _ hf with hf | ⟨p, hp, hf⟩
      · rw [Memory.read_evictBelow] at hf
        split at hf
        · cases hf
        · exact h.frames n f hf
      · exact ⟨p, h.pending_length p (mem_queue_of_mem_drained hp), hf⟩
    pending_blocked := by
      intro hq
      have hleft : (drained s m).length < s.pendingQueue.length := by
        simpa [afterAck, List.drop_eq_nil_iff] using hq
      rw [State.hasRoom_eq_false_iff]
      simp only [afterAck]
      omega
    pending_length := fun p hp => h.pending_length p (List.mem_of_mem_drop hp)
    pending_depth := by
      intro depth hd
      have := h.pending_depth depth hd
      simp only [afterAck, List.length_drop]
      omega
    timer := by
      intro hne
      simp only [afterAck, numberedFrames_isEmpty] at hne ⊢
      by_cases he : m + 1 = s.nextSeqNum
      · have : drained s m ≠ [] := by rintro hnil; simp [hnil, he] at hne
        simp [this]
      · simp [he]
    expected_le_max := h.expected_le_max
    last_ack := h.last_ack }

/-- The number of a decoded packet is in the signed 32-bit range (30_encoding R93). -/
theorem number_lt_of_decode {B : Bytes} {p : Packet} (h : decodeFrame B = .packet p) : p.number < 2147483648 := by
  obtain ⟨-, -, rfl⟩ := packet_of_decode h
  have := inNumberRange_s32 (u32_lt B 2)
  simp only [inNumberRange, decide_eq_true_eq] at this
  exact this.2

theorem Inv.accepted {s : State} (h : Inv s) (hn : s.expectedSeqNum < 2147483648) (o : Output) (tr : List TraceEntry) :
    Inv { s with
      expectedSeqNum := s.expectedSeqNum + 1
      lastAckNum := (s.expectedSeqNum : Int)
      out := o
      trace := tr } :=
  { h with
    expected_le_max := hn
    last_ack := by simp }

theorem RxEffect.keeps_inv {s t : State} {B : Bytes} (h : RxEffect s B t) (hs : Inv s) : Inv t := by
  cases h with
  | absorbed => exact hs.with_outputs _ _ _
  | acked m h1 h2 => exact hs.acked B h1 h2
  | rejected => exact hs.with_outputs _ _ _
  | accepted p hd _ _ hn =>
    have := number_lt_of_decode hd
    exact hs.accepted (by omega) _ _

theorem Effect.keeps_inv {s t : State} (h : Effect s t) (hs : Inv s) : Inv t := by
  cases h with
  | quiet => exact hs.with_outputs _ _ _
  | sent p hp hr => exact hs.sent hp hr _ _
  | queued p hp hr => exact hs.queued hp hr _ _
  | timedOut => exact { hs with timer := fun _ => rfl }
  | received B _ hrx => exact hrx.keeps_inv hs

/-- Settles O34: each effect of an operation keeps the invariants. -/
theorem stepKeepsTheInvariants : Obligations.StepKeepsTheInvariants := fun _ _ hs hstep =>
  step_keeps (fun _ left h => h.with_outputs _ _ left) (fun _ _ h he => he.keeps_inv h) hs hstep

end Sys2Proof.Machine

/-! PROOF. The order of submission (41_sender R168 (b), R174): what each effect of an operation adds to the submitted payloads,
to the frames sent for the first time and to the queue. -/

namespace Sys2Proof.Machine

theorem numberedFrames_map_snd (a : Nat) (ps : List Bytes) :
    (numberedFrames a ps).map Prod.snd = ps.mapIdx fun j p => encodeFrame .data ((a + j : Nat) : Int) p :=
  List.ext_getElem (by simp [numberedFrames]) (by simp [numberedFrames])

/-- The frames of the first `n + k` payloads are those of the first `n` and then those of the next `k`, numbered from `n` up. -/
theorem framed_take_add {ps : List Bytes} {n : Nat} (hn : n ≤ ps.length) (k : Nat) :
    (ps.take (n + k)).mapIdx (fun j p => encodeFrame .data (j : Int) p) =
      (ps.take n).mapIdx (fun j p => encodeFrame .data (j : Int) p) ++
        (numberedFrames n ((ps.drop n).take k)).map Prod.snd := by
  rw [List.take_add, List.mapIdx_append, List.length_take_of_le hn, numberedFrames_map_snd]
  simp only [Nat.add_comm n]

/-- The first transmission of a SUBMIT is the frame of its payload. -/
theorem dataFrames_sendActions (s : State) (p : Bytes) : dataFrames (sendActions s p) = [newFrame s p] := by
  unfold sendActions
  split <;> simp

theorem SubmissionOrder.sent {s : State} (h : SubmissionOrder s) (p : Bytes) (hq : s.pendingQueue = []) (ub : Memory)
    (running : Bool) (o : Output) :
    SubmissionOrder { s with
      nextSeqNum := s.nextSeqNum + 1
      unackedBuffer := ub
      timerRunning := running
      out := o
      trace := s.trace ++ [⟨.submit p, sendActions s p⟩] } := by
  obtain ⟨hle, hframes, hqueue⟩ := h
  have hlen : (submitted s.trace).length = s.nextSeqNum :=
    le_antisymm (List.drop_eq_nil_iff.1 (hqueue.symm.trans hq)) hle
  have hframed := framed_take_add (ps := submitted s.trace ++ [p]) (n := s.nextSeqNum) (by simp [hlen]) 1
  rw [List.take_append_of_le_length hlen.ge, ← hframes] at hframed
  refine ⟨?_, ?_, ?_⟩
  · simp [hlen]
  · simp only [firstTransmissions_append, submitted_append_submit, hframed, dataFrames_sendActions]
    simp [List.drop_append_of_le_length hlen.ge, ← hqueue, hq, numberedFrames_cons, newFrame]
  · simp [hq, hlen]

theorem SubmissionOrder.queued {s : State} (h : SubmissionOrder s) (p : Bytes) (o : Output) :
    SubmissionOrder { s with
      pendingQueue := s.pendingQueue ++ [p]
      out := o
      trace := s.trace ++ [⟨.submit p, []⟩] } := by
  obtain ⟨hle, hframes, hqueue⟩ := h
  refine ⟨?_, ?_, ?_⟩
  · simp; omega
  · simpa [List.take_append_of_le_length hle] using hframes
  · simp [hqueue, List.drop_append_of_le_length hle]

/-- An operation that submits nothing, frames nothing for the first time and leaves the queue keeps the order. -/
theorem SubmissionOrder.of_same_views {s t : State} (h : SubmissionOrder s) (hnext : t.nextSeqNum = s.nextSeqNum)
    (hqueue : t.pendingQueue = s.pendingQueue) (hsub : submitted t.trace = submitted s.trace)
    (hfirst : firstTransmissions t.trace = firstTransmissions s.trace) : SubmissionOrder t := by
  unfold SubmissionOrder
  rw [hnext, hqueue, hsub, hfirst]
  exact h

theorem SubmissionOrder.acked {s : State} (h : SubmissionOrder s) (B : Bytes) (m : Nat) :
    SubmissionOrder (afterAck s B m) := by
  obtain ⟨hle, hframes, hqueue⟩ := h
  have hlen := drained_length s m
  have hqlen : s.pendingQueue.length = (submitted s.trace).length - s.nextSeqNum := by rw [hqueue, List.length_drop]
  have hdrained : drained s m = ((submitted s.trace).drop s.nextSeqNum).take (drained s m).length :=
    hqueue ▸ List.prefix_iff_eq_take.1 (List.take_prefix _ _)
  have htrace : (afterAck s B m).trace = s.trace ++ [⟨.rx B, (afterAck s B m).out.actions⟩] := rfl
  have hsub : submitted (afterAck s B m).trace = submitted s.trace := by rw [htrace, submitted_append_rx]
  refine ⟨?_, ?_, ?_⟩
  · rw [hsub]; simp only [afterAck]; omega
  · rw [hsub, htrace, firstTransmissions_append, dataFrames_afterAck, hframes, hdrained]
    exact (framed_take_add hle _).symm
  · rw [hsub]
    simp [afterAck, hqueue]

theorem RxEffect.keeps_submissionOrder {s t : State} {B : Bytes} (h : RxEffect s B t) (hs : SubmissionOrder s) :
    SubmissionOrder t := by
  cases h with
  | absorbed => exact hs.of_same_views rfl rfl (by simp) (by simp)
  | acked m => exact hs.acked B m
  | rejected => exact hs.of_same_views rfl rfl (by simp) (by simp [rejectActions])
  | accepted => exact hs.of_same_views rfl rfl (by simp) (by simp [acceptActions])

/-- The invariants are needed for a SUBMIT that is sent at once: nothing may wait in front of it. -/
theorem Effect.keeps_submissionOrder {s t : State} (h : Effect s t) (hi : Inv s) (hs : SubmissionOrder s) :
    SubmissionOrder t := by
  cases h with
  | quiet => exact hs
  | sent p _ hr => exact hs.sent p (hi.queue_empty_of_room hr) _ _ _
  | queued p => exact hs.queued p _
  | timedOut => exact hs.of_same_views rfl rfl (by simp) (by simp)
  | received B _ hrx => exact hrx.keeps_submissionOrder hs

/-- Settles O40: each effect of an operation keeps the order of submission along with the invariants. -/
theorem stepKeepsSubmissionOrder : Obligations.StepKeepsSubmissionOrder := fun _ _ hi hs hstep =>
  (step_keeps (P := fun u => Inv u ∧ SubmissionOrder u) (fun _ left h => ⟨h.1.with_outputs _ _ left, h.2⟩)
    (fun _ _ h he => ⟨he.keeps_inv h.1, he.keeps_submissionOrder h.1 h.2⟩) ⟨hi, hs⟩ hstep).2

end Sys2Proof.Machine

/-! PROOF. The sender's and the receiver's state are disjoint (10_state R39): every part of a sender operation commutes with
a change of the receiver's registers, and every part of a receiver operation with a change of the sender's. -/

namespace Sys2Proof.Machine

/-- The state in which TIMEOUT starts to send its window again (41_sender R177): nothing but the timer and the outputs of the
step before has changed. -/
def State.rearmed (s : State) : State :=
  { s with timerRunning := true, out := ⟨[.startTimer s.cfg.entityId s.cfg.timerInterval], none, none⟩ }

/-- TIMEOUT is the retransmission loop between a START and the end of the step. -/
theorem execTimeout_eq (s : State) :
    execTimeout s = mapNext (fun t => t.endStep .timeout)
      (State.retransmit (s.nextSeqNum - s.windowBase) s.windowBase s.rearmed) := by
  have hs : ({ s.beginStep with timerRunning := false } : State).timerStart = s.rearmed := by
    rw [State.timerStart_eq]; rfl
  simp only [execTimeout, hs]
  rfl

section receiver
variable (s : State) (e : Nat) (a : Int)

theorem withReceiver_self : withReceiver s s.expectedSeqNum s.lastAckNum = s := rfl

theorem State.timerStart_withReceiver : (withReceiver s e a).timerStart = withReceiver s.timerStart e a := by
  rw [timerStart_eq, timerStart_eq]; rfl

theorem State.sendNew_withReceiver (p : Bytes) : (withReceiver s e a).sendNew p = withReceiver (s.sendNew p) e a := by
  rw [sendNew_eq, sendNew_eq]; rfl

theorem State.drain_withReceiver (q : List Bytes) :
    State.drain q (withReceiver s e a) = withReceiver (State.drain q s) e a := by
  induction q generalizing s with
  | nil => rfl
  | cons p rest ih =>
    rw [drain_cons, drain_cons, show (withReceiver s e a).hasRoom = s.hasRoom from rfl]
    split
    · rw [← ih, ← sendNew_withReceiver]; rfl
    · rfl

theorem State.acceptAck_withReceiver (n : Nat) :
    (withReceiver s e a).acceptAck n = withReceiver (s.acceptAck n) e a := by
  rw [acceptAck_eq, acceptAck_eq, ← drain_withReceiver]; rfl

theorem State.onAckReceived_withReceiver (ack : Option Int) :
    (withReceiver s e a).onAckReceived ack = withReceiver (s.onAckReceived ack) e a := by
  cases ack with
  | none => rfl
  | some n =>
    simp only [onAckReceived, show (withReceiver s e a).windowBase = s.windowBase from rfl,
      show (withReceiver s e a).nextSeqNum = s.nextSeqNum from rfl]
    split
    · rfl
    · split
      · rfl
      · exact acceptAck_withReceiver (s.classify .ackAccept) e a n.toNat

theorem State.retransmit_withReceiver (count n : Nat) :
    State.retransmit count n (withReceiver s e a) =
      mapNext (fun t => withReceiver t e a) (State.retransmit count n s) := by
  induction count generalizing n s with
  | zero => rfl
  | succ count ih =>
    unfold retransmit
    rw [show (withReceiver s e a).unackedBuffer = s.unackedBuffer from rfl]
    cases s.unackedBuffer.read n with
    | none => rfl
    | some pkt => exact ih (s.emit (.transmit s.cfg.entityId false pkt)) (n + 1)

theorem execSubmit_withReceiver (p : Bytes) :
    execSubmit p (withReceiver s e a) = mapNext (fun t => withReceiver t e a) (execSubmit p s) := by
  unfold execSubmit
  rw [show (withReceiver s e a).submitAdmitted p = s.submitAdmitted p from rfl]
  split
  · have hs : (withReceiver s e a).beginStep = withReceiver s.beginStep e a := rfl
    simp only [hs, show (withReceiver s.beginStep e a).hasRoom = s.beginStep.hasRoom from rfl]
    split
    · rw [State.sendNew_withReceiver]; rfl
    · rfl
  · rfl

theorem execPktAck_withReceiver (n : BitVec 32) (c : BitVec 16) (l : BitVec 32) (b : Bytes) :
    execPktAck n c l b (withReceiver s e a) = mapNext (fun t => withReceiver t e a) (execPktAck n c l b s) := by
  unfold execPktAck
  simp only [show ∀ B, (withReceiver s e a).frameAdmitted B = s.frameAdmitted B from fun _ => rfl,
    show (withReceiver s e a).beginStep = withReceiver s.beginStep e a from rfl, State.onAckReceived_withReceiver]
  split <;> rfl

theorem execTimeout_withReceiver :
    execTimeout (withReceiver s e a) = mapNext (fun t => withReceiver t e a) (execTimeout s) := by
  rw [execTimeout_eq, execTimeout_eq, show (withReceiver s e a).rearmed = withReceiver s.rearmed e a from rfl,
    State.retransmit_withReceiver]
  change mapNext _ (mapNext _ (State.retransmit (s.nextSeqNum - s.windowBase) s.windowBase s.rearmed)) = _
  cases State.retransmit (s.nextSeqNum - s.windowBase) s.windowBase s.rearmed <;> rfl

end receiver

section sender
variable (s u : State)

theorem withSenderOf_self : withSenderOf s s = s := rfl

theorem State.onDataReceived_withSenderOf (pkt : Option (Int × Bytes)) :
    (withSenderOf s u).onDataReceived pkt = withSenderOf (s.onDataReceived pkt) u := by
  cases pkt with
  | none => rfl
  | some p =>
    simp only [onDataReceived, show (withSenderOf s u).expectedSeqNum = s.expectedSeqNum from rfl]
    split <;> rfl

theorem execPktData_withSenderOf (n : BitVec 32) (c : BitVec 16) (l : BitVec 32) (b : Bytes) :
    execPktData n c l b (withSenderOf s u) = mapNext (fun t => withSenderOf t u) (execPktData n c l b s) := by
  unfold execPktData
  simp only [show ∀ B, (withSenderOf s u).frameAdmitted B = s.frameAdmitted B from fun _ => rfl,
    show (withSenderOf s u).beginStep = withSenderOf s.beginStep u from rfl, State.onDataReceived_withSenderOf]
  split <;> rfl

end sender

/-- A sender operation: SUBMIT, TIMEOUT or an ACK frame (10_state R39). -/
def isSenderOp (i : Instr) : Prop := i = .timeout ∨ (∃ p, i = .submit p) ∨ ∃ n c l b, i = .pktAck n c l b

theorem exec_withReceiver {i : Instr} (hi : isSenderOp i) (s : State) (e : Nat) (a : Int) :
    exec i (withReceiver s e a) = mapNext (fun t => withReceiver t e a) (exec i s) := by
  obtain rfl | ⟨p, rfl⟩ | ⟨n, c, l, b, rfl⟩ := hi
  · exact execTimeout_withReceiver s e a
  · exact execSubmit_withReceiver s e a p
  · exact execPktAck_withReceiver s e a n c l b

/-- A sender operation leaves the receiver's registers: replacing them by themselves changes nothing in what it answers. -/
theorem exec_keeps_receiver {i : Instr} (hi : isSenderOp i) {s t : State} (h : exec i s = .next t) :
    t.expectedSeqNum = s.expectedSeqNum ∧ t.lastAckNum = s.lastAckNum := by
  have hself := exec_withReceiver hi s s.expectedSeqNum s.lastAckNum
  rw [withReceiver_self, h] at hself
  injection hself with ht
  rw [ht]
  exact ⟨rfl, rfl⟩

/-- A DATA frame leaves the sender's registers and stores, by the same argument. -/
theorem exec_pktData_keeps_sender {n : BitVec 32} {c : BitVec 16} {l : BitVec 32} {b : Bytes} {s t : State}
    (h : exec (.pktData n c l b) s = .next t) : t = withSenderOf t s := by
  have hself : exec (.pktData n c l b) (withSenderOf s s) = mapNext _ (exec (.pktData n c l b) s) :=
    execPktData_withSenderOf s s n c l b
  rw [withSenderOf_self, h] at hself
  injection hself

/-- Settles O47: each side's operations commute with a change of the other side's state. -/
theorem senderAndReceiverAreDisjoint : Obligations.SenderAndReceiverAreDisjoint :=
  ⟨fun s e a _ hi => ⟨exec_withReceiver hi s e a, fun _ => exec_keeps_receiver hi⟩,
    fun s u n c l b => ⟨execPktData_withSenderOf s u n c l b, fun _ => exec_pktData_keeps_sender⟩⟩

end Sys2Proof.Machine

/-! PROOF. The sequencer registers (10_state R21, R22, R29, R39): they never fall, and each is written by its own operations
only. -/

namespace Sys2Proof.Machine

/-- What a step may do to the three sequencer registers: none falls, and `expected_seq_num` rises by at most 1. -/
structure SequencersRise (s t : State) : Prop where
  windowBase      : s.windowBase ≤ t.windowBase
  nextSeqNum      : s.nextSeqNum ≤ t.nextSeqNum
  expectedSeqNum  : s.expectedSeqNum ≤ t.expectedSeqNum
  expected_le_succ : t.expectedSeqNum ≤ s.expectedSeqNum + 1

/-- Where no sequencer register changes, none falls. -/
theorem SequencersRise.of_eq {s t : State} (hb : t.windowBase = s.windowBase) (hn : t.nextSeqNum = s.nextSeqNum)
    (he : t.expectedSeqNum = s.expectedSeqNum) : SequencersRise s t :=
  ⟨hb.ge, hn.ge, he.ge, he.le.trans (Nat.le_succ _)⟩

theorem RxEffect.sequencersRise {s t : State} {B : Bytes} (h : RxEffect s B t) : SequencersRise s t := by
  cases h with
  | absorbed => exact .of_eq rfl rfl rfl
  | acked m h1 => exact ⟨Nat.le_succ_of_le h1, Nat.le_add_right _ _, le_rfl, Nat.le_succ _⟩
  | rejected => exact .of_eq rfl rfl rfl
  | accepted => exact ⟨le_rfl, le_rfl, Nat.le_succ _, le_rfl⟩

theorem Effect.sequencersRise {s t : State} (h : Effect s t) : SequencersRise s t := by
  cases h with
  | quiet => exact .of_eq rfl rfl rfl
  | sent => exact ⟨le_rfl, Nat.le_succ _, le_rfl, Nat.le_succ _⟩
  | queued => exact .of_eq rfl rfl rfl
  | timedOut => exact .of_eq rfl rfl rfl
  | received _ _ hrx => exact hrx.sequencersRise

/-- The state after a SUBMIT: not admitted, framed and sent, or queued (41_sender R167, 43_entity R228). -/
theorem exec_submit_cases {p : Bytes} {s t : State} (h : exec (.submit p) s = .next t) :
    (s.submitAdmitted p = false ∧ t = s) ∨ t = (s.beginStep.sendNew p).endStep (.submit p) ∨
      t = (s.beginStep.pushBack p).endStep (.submit p) := by
  simp only [exec, execSubmit] at h
  split at h
  · cases h
    split
    · exact .inr (.inl rfl)
    · exact .inr (.inr rfl)
  · rename_i ha
    cases h
    exact .inl ⟨by simpa using ha, rfl⟩

theorem exec_submit_windowBase {p : Bytes} {s t : State} (h : exec (.submit p) s = .next t) :
    t.windowBase = s.windowBase := by
  obtain ⟨-, rfl⟩ | rfl | rfl := exec_submit_cases h
  · rfl
  · rw [State.sendNew_eq]; rfl
  · rfl

/-- A TIMEOUT that completes is a retransmission that completes, and the end of the step. -/
theorem exec_timeout_cases {s t : State} (h : exec .timeout s = .next t) :
    ∃ u, State.retransmit (s.nextSeqNum - s.windowBase) s.windowBase s.rearmed = .next u ∧ t = u.endStep .timeout := by
  rw [show exec .timeout s = execTimeout s from rfl, execTimeout_eq] at h
  cases hu : State.retransmit (s.nextSeqNum - s.windowBase) s.windowBase s.rearmed with
  | next u => rw [hu] at h; cases h; exact ⟨u, rfl, rfl⟩
  | fault r => rw [hu] at h; cases h
  | refused r => rw [hu] at h; cases h

theorem exec_timeout_window {s t : State} (h : exec .timeout s = .next t) :
    t.windowBase = s.windowBase ∧ t.nextSeqNum = s.nextSeqNum := by
  obtain ⟨u, hu, rfl⟩ := exec_timeout_cases h
  rw [State.retransmit_frame _ _ _ _ hu]
  exact ⟨rfl, rfl⟩

theorem exec_pktData_window {n : BitVec 32} {c : BitVec 16} {l : BitVec 32} {b : Bytes} {s t : State}
    (h : exec (.pktData n c l b) s = .next t) : t.windowBase = s.windowBase ∧ t.nextSeqNum = s.nextSeqNum := by
  rw [exec_pktData_keeps_sender h]
  exact ⟨rfl, rfl⟩

/-- Which operations may write which sequencer register (10_state R39). -/
structure WritersOf (i : Instr) (s t : State) : Prop where
  windowBase : t.windowBase ≠ s.windowBase → (∃ n c l b, i = .pktAck n c l b) ∨ ∃ B, i = .rx B
  nextSeqNum : t.nextSeqNum ≠ s.nextSeqNum → (∃ n c l b, i = .pktAck n c l b) ∨ (∃ B, i = .rx B) ∨ ∃ p, i = .submit p
  expectedSeqNum : t.expectedSeqNum ≠ s.expectedSeqNum → (∃ n c l b, i = .pktData n c l b) ∨ ∃ B, i = .rx B

/-- An operation that writes no sequencer register needs no name among their writers. -/
theorem WritersOf.of_eq {i : Instr} {s t : State} (hb : t.windowBase = s.windowBase) (hn : t.nextSeqNum = s.nextSeqNum)
    (he : t.expectedSeqNum = s.expectedSeqNum) : WritersOf i s t :=
  ⟨absurd hb, absurd hn, absurd he⟩

theorem exec_writers {i : Instr} {s t : State} (h : exec i s = .next t) : WritersOf i s t := by
  cases i with
  | submit p =>
    have hb := exec_submit_windowBase h
    obtain ⟨he, -⟩ := exec_keeps_receiver (.inr (.inl ⟨p, rfl⟩)) h
    exact ⟨absurd hb, fun _ => .inr (.inr ⟨p, rfl⟩), absurd he⟩
  | rx B => exact ⟨fun _ => .inr ⟨B, rfl⟩, fun _ => .inr (.inl ⟨B, rfl⟩), fun _ => .inr ⟨B, rfl⟩⟩
  | timeout =>
    obtain ⟨hb, hn⟩ := exec_timeout_window h
    obtain ⟨he, -⟩ := exec_keeps_receiver (.inl rfl) h
    exact .of_eq hb hn he
  | pktAck n c l b =>
    obtain ⟨he, -⟩ := exec_keeps_receiver (.inr (.inr ⟨n, c, l, b, rfl⟩)) h
    exact ⟨fun _ => .inl ⟨n, c, l, b, rfl⟩, fun _ => .inl ⟨n, c, l, b, rfl⟩, absurd he⟩
  | pktData n c l b =>
    obtain ⟨hb, hn⟩ := exec_pktData_window h
    exact ⟨absurd hb, absurd hn, fun _ => .inl ⟨n, c, l, b, rfl⟩⟩
  | _ =>
    -- IDLE, an action handed out or a framer call: the outputs are all that can change.
    cases h
    exact .of_eq rfl rfl rfl

/-- Settles O46: the effects say that no sequencer register falls, the operations one by one say which they leave. -/
theorem sequencersNeverDecrease : Obligations.SequencersNeverDecrease := by
  intro i s t h
  obtain ⟨hb, hn, he, hle⟩ := (exec_effect h).sequencersRise
  obtain ⟨wb, wn, we⟩ := exec_writers h
  exact ⟨hb, hn, he, hle, wb, wn, we⟩

end Sys2Proof.Machine

/-! PROOF. The status port (10_state R34, R35): its predicates by their definitions, and the class that it reads after a
step (60_exceptions R262). -/

namespace Sys2Proof.Machine

theorem State.windowEmpty_iff (s : State) : s.windowEmpty = true ↔ s.windowBase = s.nextSeqNum := beq_iff_eq

theorem State.windowFull_iff (s : State) :
    s.windowFull = true ↔ ¬ (s.nextSeqNum < s.windowBase + s.cfg.windowSize ∧ s.nextSeqNum ≤ 2147483647) := by
  rw [← hasRoom_iff, windowFull, Bool.not_eq_true', Bool.not_eq_true]

theorem State.pendingNonempty_iff (s : State) : s.pendingNonempty = true ↔ s.pendingQueue ≠ [] := by
  rw [pendingNonempty, decide_eq_true_eq, gt_iff_lt, List.length_pos_iff]

theorem State.seqExhausted_iff (s : State) : s.seqExhausted = true ↔ s.nextSeqNum = 2147483648 := beq_iff_eq

/-- The number of the class of a received frame, read off R262's table. -/
theorem rxClassCode_rxClassOf (s : State) (B : Bytes) :
    rxClassCode (rxClassOf s B) =
      if B.length < 2 then 8
      else if u16 B 0 ≠ 0 ∧ u16 B 0 ≠ 128 then 7
      else if u16 B 0 = 0 then
        if corrupt B = true then 3
        else if s32 (u32 B 2) < (s.windowBase : Int) then 1
        else if s32 (u32 B 2) ≥ (s.nextSeqNum : Int) then 2
        else 0
      else
        if corrupt B = true then 6
        else if s32 (u32 B 2) ≠ (s.expectedSeqNum : Int) then 5
        else 4 := by
  unfold rxClassOf frameTag
  by_cases hlen : B.length < 2
  · simp [hlen, rxClassCode]
  · simp only [hlen, if_false, apply_ite rxClassCode]
    rfl

theorem RxEffect.rxClass_eq {s t : State} {B : Bytes} (h : RxEffect s B t) : t.out.rxClass = some (rxClassOf s B) := by
  cases h with
  | absorbed k _ hc => rw [hc]
  | acked m _ _ hc => rw [hc]; rfl
  | rejected k _ hc => rw [hc]
  | accepted p _ _ _ _ hc => rw [hc]

theorem exec_rx_rxClass {B : Bytes} {s t : State} (ha : s.frameAdmitted B = true) (h : exec (.rx B) s = .next t) :
    t.out.rxClass = some (rxClassOf s B) := by
  simp only [exec, execRx, ha, if_true] at h
  cases h
  exact (rx_effect s B).rxClass_eq

theorem exec_submit_rxClass {p : Bytes} {s t : State} (ha : s.submitAdmitted p = true)
    (h : exec (.submit p) s = .next t) : t.out.rxClass = none := by
  obtain ⟨hn, -⟩ | rfl | rfl := exec_submit_cases h
  · simp [ha] at hn
  · rw [State.sendNew_eq]; rfl
  · rfl

/-- The retransmission loop classifies nothing. -/
theorem State.retransmit_rxClass {count n : Nat} {s t : State} (h : State.retransmit count n s = .next t) :
    t.out.rxClass = s.out.rxClass := by
  induction count generalizing n s with
  | zero => cases h; rfl
  | succ count ih =>
    unfold retransmit at h
    split at h
    · cases h
    · exact ih (s := s.emit _) h

theorem exec_timeout_rxClass {s t : State} (h : exec .timeout s = .next t) : t.out.rxClass = none := by
  obtain ⟨u, hu, rfl⟩ := exec_timeout_cases h
  exact State.retransmit_rxClass hu

theorem State.statusView_rxClass (s : State) : s.statusView.rxClass = s.out.rxClass.map rxClassCode := rfl

/-- Settles O51: the view's predicates are those of R34, and each step leaves the class of its operation or none. -/
theorem statusPortReportsTheState : Obligations.StatusPortReportsTheState := by
  intro s
  refine ⟨⟨rfl, rfl, rfl, rfl, rfl, rfl⟩, s.windowEmpty_iff, s.hasRoom_iff, s.windowFull_iff, s.pendingNonempty_iff,
    s.seqExhausted_iff, ?_, ?_, ?_⟩
  · intro B t ha h
    rw [t.statusView_rxClass, exec_rx_rxClass ha h, Option.map_some, rxClassCode_rxClassOf]
  · intro p t ha h
    rw [t.statusView_rxClass, exec_submit_rxClass ha h, Option.map_none]
  · intro t h
    rw [t.statusView_rxClass, exec_timeout_rxClass h, Option.map_none]

end Sys2Proof.Machine

/-! PROOF. The unacked buffer (20_memory R61 to R65): each effect of an operation leaves its keys rising, and the window is
never wider than the slots of a store of `window_size` frames. -/

namespace Sys2Proof.Machine

/-- An accepted ACK evicts a prefix of the buffer and then writes the drained frames, and neither breaks the order. -/
theorem wf_afterAck {s : State} (h : s.unackedBuffer.wf) (B : Bytes) (m : Nat) : (afterAck s B m).unackedBuffer.wf :=
  wf_foldl_write _ _ (Memory.wf_evictBelow h (m + 1))

theorem RxEffect.keeps_wf {s t : State} {B : Bytes} (h : RxEffect s B t) (hs : s.unackedBuffer.wf) :
    t.unackedBuffer.wf := by
  cases h with
  | absorbed => exact hs
  | acked m => exact wf_afterAck hs B m
  | rejected => exact hs
  | accepted => exact hs

theorem Effect.keeps_wf {s t : State} (h : Effect s t) (hs : s.unackedBuffer.wf) : t.unackedBuffer.wf := by
  cases h with
  | quiet => exact hs
  | sent p => exact Memory.wf_write hs s.nextSeqNum (newFrame s p)
  | queued => exact hs
  | timedOut => exact hs
  | received _ _ hrx => exact hrx.keeps_wf hs

/-- Settles O48: only a SUBMIT that is sent and an accepted ACK touch the buffer, and their writes and evictions keep its
keys rising. -/
theorem stepKeepsBufferCanonical : Obligations.StepKeepsBufferCanonical :=
  fun _ _ _ hs h => (exec_effect h).keeps_wf hs

/-- Among keys less than `windowSize` apart, `slotOf` is injective. -/
theorem eq_of_slotOf_eq {windowSize n m : Nat} (hn : n < m + windowSize) (hm : m < n + windowSize)
    (h : slotOf windowSize n = slotOf windowSize m) : n = m := by
  have hmod : n ≡ m [MOD windowSize] := h
  exact hmod.eq_of_abs_lt (by rw [abs_lt]; omega)

/-- Settles O49: the window holds at most `window_size` consecutive keys (10_state R23), so any two are less than
`window_size` apart. -/
theorem windowKeysNeverShareASlot : Obligations.WindowKeysNeverShareASlot := by
  intro s hs n m hbn hn hbm hm hslot
  have hwindow := hs.next_le_window
  exact eq_of_slotOf_eq (by omega) (by omega) hslot

end Sys2Proof.Machine

/-! PROOF. The record encodings (30_encoding R91, R102, R103, R112, logs 7 to 9): which records the decoder reads as which
operation, said once; the records that the encoder makes are among them, and each of those operations is well-formed. -/

namespace Sys2Proof

open Machine (u16 u32 s32 t32 inNumberRange kindTag kindOfTag isAckFrame s32_t32 t32_lt inNumberRange_s32 kindTag_lt
  kindOfTag_kindTag layout_u16_kind layout_u32_number layout_u16_checksum layout_u32_length layout_drop)

/-- What the decoder reads: one constructor per row of the three packed formats, with what its record must hold. A frame
always reads as what `decodePkt` makes of it. -/
inductive Reads : Record → Instr → Prop
  | idle {r b : Bytes} (hop : bitsOf (leNat r) 0 2 = 0) (hb : unpackBytes 34 5 0 r = .ok b) : Reads ⟨.stim, r⟩ .idle
  | submit {r p : Bytes} (hop : bitsOf (leNat r) 0 2 = 1) (hp : unpackBytes 34 5 (bitsOf (leNat r) 2 32) r = .ok p) :
    Reads ⟨.stim, r⟩ (.submit p)
  | rx {r B : Bytes} (hop : bitsOf (leNat r) 0 2 = 2) (hB : unpackBytes 34 5 (bitsOf (leNat r) 2 32) r = .ok B) :
    Reads ⟨.stim, r⟩ (.rx B)
  | timeout {r b : Bytes} (hop : bitsOf (leNat r) 0 2 = 3) (hb : unpackBytes 34 5 0 r = .ok b) :
    Reads ⟨.stim, r⟩ .timeout
  | frame {B : Bytes} {i : Instr} (hi : decodePkt B = i) : Reads ⟨.pkt, B⟩ i
  | transmit {r f : Bytes} {e : EntityId} {a : Bool} (hop : bitsOf (leNat r) 0 2 = 0)
    (he : entityOfBit (bitsOf (leNat r) 2 1) = e) (ha : (bitsOf (leNat r) 3 1 == 1) = a)
    (hd : bitsOf (leNat r) 4 32 = 0) (hf : unpackBytes 68 9 (bitsOf (leNat r) 36 32) r = .ok f) (hk : a = isAckFrame f) :
    Reads ⟨.act, r⟩ (.transmit e a f)
  | deliver {r p : Bytes} {e : EntityId} (hop : bitsOf (leNat r) 0 2 = 1)
    (he : entityOfBit (bitsOf (leNat r) 2 1) = e) (ha : (bitsOf (leNat r) 3 1 == 1) = false)
    (hd : bitsOf (leNat r) 4 32 = 0) (hp : unpackBytes 68 9 (bitsOf (leNat r) 36 32) r = .ok p) :
    Reads ⟨.act, r⟩ (.deliver e p)
  | startTimer {r b : Bytes} {e : EntityId} {d : BitVec 32} (hop : bitsOf (leNat r) 0 2 = 2)
    (he : entityOfBit (bitsOf (leNat r) 2 1) = e) (ha : (bitsOf (leNat r) 3 1 == 1) = false)
    (hd : BitVec.ofNat 32 (bitsOf (leNat r) 4 32) = d) (hl : bitsOf (leNat r) 36 32 = 0)
    (hb : unpackBytes 68 9 0 r = .ok b) : Reads ⟨.act, r⟩ (.startTimer e ⟨d⟩)
  | stopTimer {r b : Bytes} {e : EntityId} (hop : bitsOf (leNat r) 0 2 = 3)
    (he : entityOfBit (bitsOf (leNat r) 2 1) = e) (ha : (bitsOf (leNat r) 3 1 == 1) = false)
    (hd : bitsOf (leNat r) 4 32 = 0) (hl : bitsOf (leNat r) 36 32 = 0) (hb : unpackBytes 68 9 0 r = .ok b) :
    Reads ⟨.act, r⟩ (.stopTimer e)
  | frmEncode {r p : Bytes} {k : Kind} {n : Int} (hop : bitsOf (leNat r) 0 2 = 0)
    (hk : kindOfTag (bitsOf (leNat r) 2 16) = some k) (hn : s32 (bitsOf (leNat r) 18 32) = n)
    (hp : unpackBytes 82 11 (bitsOf (leNat r) 50 32) r = .ok p) : Reads ⟨.frm, r⟩ (.frmEncode k n p)
  | frmDecode {r b : Bytes} (hop : bitsOf (leNat r) 0 2 = 1) (hb : unpackBytes 34 5 (bitsOf (leNat r) 2 32) r = .ok b) :
    Reads ⟨.frm, r⟩ (.frmDecode b)
  | frmVerify {r b : Bytes} (hop : bitsOf (leNat r) 0 2 = 2) (hb : unpackBytes 34 5 (bitsOf (leNat r) 2 32) r = .ok b) :
    Reads ⟨.frm, r⟩ (.frmVerify b)

/-- What a constructor of `Reads` asks for is what the decoder tests. -/
theorem Reads.decode_eq {r : Record} {i : Instr} (h : Reads r i) : decode r = .ok i := by
  cases h <;> simp [decode, decodeStim, decodeAct, decodeFrm, Except.map, *]

theorem bitsOf_two_cases (v : Nat) :
    bitsOf v 0 2 = 0 ∨ bitsOf v 0 2 = 1 ∨ bitsOf v 0 2 = 2 ∨ bitsOf v 0 2 = 3 := by
  have : bitsOf v 0 2 < 4 := bitsOf_lt v 0 2
  omega

theorem map_eq_ok {x : Except DecodeError Bytes} {f : Bytes → Instr} {i : Instr} (h : x.map f = .ok i) :
    ∃ b, x = .ok b ∧ i = f b := by
  cases x with
  | error e => cases h
  | ok b => cases h; exact ⟨b, rfl, rfl⟩

theorem reads_of_decodeStim {r : Bytes} {i : Instr} (h : decodeStim r = .ok i) : Reads ⟨.stim, r⟩ i := by
  unfold decodeStim at h
  rcases bitsOf_two_cases (leNat r) with hop | hop | hop | hop <;> simp only [hop] at h <;>
    obtain ⟨b, hb, rfl⟩ := map_eq_ok h
  · exact .idle hop hb
  · exact .submit hop hb
  · exact .rx hop hb
  · exact .timeout hop hb

/-- A record that passes a check is read by what stands behind the check. -/
theorem of_guard_eq_ok {c : Prop} [Decidable c] {e : DecodeError} {x : Except DecodeError Instr} {i : Instr}
    (h : (if c then .error e else x) = .ok i) : ¬ c ∧ x = .ok i := by
  split at h
  · cases h
  · exact ⟨‹_›, h⟩

theorem reads_of_decodeAct {r : Bytes} {i : Instr} (h : decodeAct r = .ok i) : Reads ⟨.act, r⟩ i := by
  unfold decodeAct at h
  rcases bitsOf_two_cases (leNat r) with hop | hop | hop | hop <;> simp only [hop] at h <;>
    obtain ⟨hzero, h⟩ := of_guard_eq_ok h <;>
    simp only [ne_eq, not_or, not_not, Bool.not_eq_true] at hzero
  · split at h
    · cases h
    · rename_i f hf
      split at h
      · rename_i ha
        cases h
        exact .transmit hop rfl rfl hzero hf ha
      · cases h
  · obtain ⟨p, hp, rfl⟩ := map_eq_ok h
    exact .deliver hop rfl hzero.2 hzero.1 hp
  · obtain ⟨b, hb, rfl⟩ := map_eq_ok h
    exact .startTimer hop rfl hzero.1 rfl hzero.2 hb
  · obtain ⟨b, hb, rfl⟩ := map_eq_ok h
    obtain ⟨hd, ha, hl⟩ := hzero
    exact .stopTimer hop rfl ha hd hl hb

theorem reads_of_decodeFrm {r : Bytes} {i : Instr} (h : decodeFrm r = .ok i) : Reads ⟨.frm, r⟩ i := by
  unfold decodeFrm at h
  rcases bitsOf_two_cases (leNat r) with hop | hop | hop | hop <;> simp only [hop] at h
  · split at h
    · cases h
    · rename_i k hk
      obtain ⟨p, hp, rfl⟩ := map_eq_ok h
      exact .frmEncode hop hk rfl hp
  · obtain ⟨b, hb, rfl⟩ := map_eq_ok h
    exact .frmDecode hop hb
  · obtain ⟨b, hb, rfl⟩ := map_eq_ok h
    exact .frmVerify hop hb
  · cases h

/-- The decoder accepts a record exactly when it is one that `Reads` lists. -/
theorem decode_eq_ok_iff {r : Record} {i : Instr} : decode r = .ok i ↔ Reads r i := by
  refine ⟨fun h => ?_, Reads.decode_eq⟩
  obtain ⟨format, bytes⟩ := r
  cases format with
  | stim => exact reads_of_decodeStim h
  | pkt => cases h; exact .frame rfl
  | act => exact reads_of_decodeAct h
  | frm => exact reads_of_decodeFrm h

/-- Bytes unpacked with a 32-bit `len` fit that field. -/
theorem fitsLen_of_unpackBytes {hbits hbytes v lo : Nat} {r b : Bytes}
    (h : unpackBytes hbits hbytes (bitsOf v lo 32) r = .ok b) : fitsLen b :=
  (length_of_unpackBytes h).trans_lt (bitsOf_lt v lo 32)

theorem decodePkt_wellFormed {B : Bytes} (h : fitsLen B) : (decodePkt B).wellFormed = true := by
  have hrx : (Instr.rx B).wellFormed = true := decide_eq_true h
  unfold decodePkt
  split
  · exact hrx
  · split
    · rfl
    · rfl
    · exact hrx

/-- Settles O6: every length the decoder answers comes from a 32-bit `len` field, `is_ack` was compared with the frame, and
a 32-bit word is a number in the signed range. -/
theorem decodedIsWellFormed : Obligations.DecodedIsWellFormed := by
  intro r i h hframe
  cases decode_eq_ok_iff.1 h with
  | idle => rfl
  | submit _ hp => exact decide_eq_true (fitsLen_of_unpackBytes hp)
  | rx _ hB => exact decide_eq_true (fitsLen_of_unpackBytes hB)
  | timeout => rfl
  | frame hi => exact hi ▸ decodePkt_wellFormed (hframe rfl)
  | transmit _ _ _ _ hf hk => simp [Instr.wellFormed, fitsLen_of_unpackBytes hf, hk]
  | deliver _ _ _ _ hp => exact decide_eq_true (fitsLen_of_unpackBytes hp)
  | startTimer => rfl
  | stopTimer => rfl
  | frmEncode _ _ hn hp => simp [Instr.wellFormed, fitsLen_of_unpackBytes hp, ← hn, inNumberRange_s32 (bitsOf_lt _ 18 32)]
  | frmDecode _ hb => exact decide_eq_true (fitsLen_of_unpackBytes hb)
  | frmVerify _ hb => exact decide_eq_true (fitsLen_of_unpackBytes hb)

/-- A field of a packed record is read from its header alone. -/
theorem bitsOf_packBytes {hbits hbytes header lo n : Nat} (b : Bytes) (h : header < 2 ^ hbits)
    (hs : 2 ^ hbits ≤ 256 ^ hbytes) (hlo : lo + n ≤ hbits) :
    bitsOf (leNat (packBytes hbits hbytes header b)) lo n = bitsOf header lo n := by
  rw [leNat_packBytes b h hs, bitsOf_header _ hlo]

/-- The record of a stimulus, of DECODE or of VERIFY: `len` follows the two code bits (30_encoding R102, R112, logs 7, 9). -/
def shortRecord (code : Nat) (b : Bytes) : Bytes := packBytes 34 5 (code + 4 * b.length) b

/-- A short record gives back its bytes. -/
theorem unpackBytes_shortRecord {code : Nat} {b : Bytes} (hcode : code < 4) (hb : fitsLen b) :
    unpackBytes 34 5 (bitsOf (leNat (shortRecord code b)) 2 32) (shortRecord code b) = .ok b := by
  have hheader : code + 4 * b.length < 2 ^ 34 := by omega
  have hlen : bitsOf (code + 4 * b.length) 2 32 = b.length := by simp only [bitsOf]; omega
  unfold shortRecord
  rw [bitsOf_packBytes b hheader (by decide) (by decide), hlen, unpackBytes_packBytes b hheader (by decide)]

theorem entityOfBit_entityBit (e : EntityId) : entityOfBit (entityBit e) = e := by cases e <;> rfl

/-- The header of an action's record (30_encoding R103, log 8). -/
def actHeader (op : Nat) (e : EntityId) (isAck : Bool) (duration len : Nat) : Nat :=
  op + 4 * entityBit e + 8 * isAck.toNat + 16 * duration + 2 ^ 36 * len

/-- The fields of an action's header do not overlap. -/
theorem actHeader_fields {op duration len : Nat} (e : EntityId) (isAck : Bool) (hop : op < 4) (hd : duration < 2 ^ 32)
    (hl : len < 2 ^ 32) :
    actHeader op e isAck duration len < 2 ^ 68 ∧
      bitsOf (actHeader op e isAck duration len) 0 2 = op ∧
      bitsOf (actHeader op e isAck duration len) 2 1 = entityBit e ∧
      bitsOf (actHeader op e isAck duration len) 3 1 = isAck.toNat ∧
      bitsOf (actHeader op e isAck duration len) 4 32 = duration ∧
      bitsOf (actHeader op e isAck duration len) 36 32 = len := by
  have he : entityBit e < 2 := by cases e <;> decide
  have ha : isAck.toNat < 2 := isAck.toNat_lt
  simp only [actHeader, bitsOf]
  refine ⟨?_, ?_, ?_, ?_, ?_, ?_⟩ <;> omega

/-- The record of an action: the header, then the bytes. -/
def actRecord (op : Nat) (e : EntityId) (isAck : Bool) (duration : Nat) (b : Bytes) : Bytes :=
  packBytes 68 9 (actHeader op e isAck duration b.length) b

/-- What the decoder finds in an action's record. -/
theorem actRecord_fields {op duration : Nat} (e : EntityId) (isAck : Bool) {b : Bytes} (hop : op < 4)
    (hd : duration < 2 ^ 32) (hb : fitsLen b) :
    bitsOf (leNat (actRecord op e isAck duration b)) 0 2 = op ∧
      entityOfBit (bitsOf (leNat (actRecord op e isAck duration b)) 2 1) = e ∧
      (bitsOf (leNat (actRecord op e isAck duration b)) 3 1 == 1) = isAck ∧
      bitsOf (leNat (actRecord op e isAck duration b)) 4 32 = duration ∧
      bitsOf (leNat (actRecord op e isAck duration b)) 36 32 = b.length ∧
      unpackBytes 68 9 b.length (actRecord op e isAck duration b) = .ok b := by
  obtain ⟨hheader, h0, h2, h3, h4, h36⟩ := actHeader_fields e isAck hop hd hb
  have hfield : ∀ lo n, lo + n ≤ 68 → bitsOf (leNat (actRecord op e isAck duration b)) lo n =
      bitsOf (actHeader op e isAck duration b.length) lo n :=
    fun _ _ hlo => bitsOf_packBytes b hheader (by decide) hlo
  rw [hfield 0 2 (by decide), hfield 2 1 (by decide), hfield 3 1 (by decide), hfield 4 32 (by decide),
    hfield 36 32 (by decide), h0, h2, h3, h4, h36, entityOfBit_entityBit]
  exact ⟨rfl, rfl, by cases isAck <;> rfl, rfl, rfl, unpackBytes_packBytes b hheader (by decide)⟩

/-- The header of the record of an ENCODE call (30_encoding R112, log 9). -/
def encodeCallHeader (k : Kind) (number : Int) (len : Nat) : Nat :=
  0 + 4 * kindTag k + 2 ^ 18 * t32 number + 2 ^ 50 * len

/-- The fields of the header of an ENCODE call do not overlap. -/
theorem encodeCallHeader_fields (k : Kind) {number : Int} {len : Nat} (hn : inNumberRange number = true)
    (hl : len < 2 ^ 32) :
    encodeCallHeader k number len < 2 ^ 82 ∧
      bitsOf (encodeCallHeader k number len) 0 2 = 0 ∧
      bitsOf (encodeCallHeader k number len) 2 16 = kindTag k ∧
      bitsOf (encodeCallHeader k number len) 18 32 = t32 number ∧
      bitsOf (encodeCallHeader k number len) 50 32 = len := by
  have hk := kindTag_lt k
  have ht := t32_lt hn
  simp only [encodeCallHeader, bitsOf]
  refine ⟨?_, ?_, ?_, ?_, ?_⟩ <;> omega

/-- The record of an ENCODE call: the header, then the payload. -/
def encodeCallRecord (k : Kind) (number : Int) (p : Bytes) : Bytes :=
  packBytes 82 11 (encodeCallHeader k number p.length) p

/-- What the decoder finds in the record of an ENCODE call. -/
theorem encodeCallRecord_fields (k : Kind) {number : Int} {p : Bytes} (hn : inNumberRange number = true)
    (hp : fitsLen p) :
    bitsOf (leNat (encodeCallRecord k number p)) 0 2 = 0 ∧
      kindOfTag (bitsOf (leNat (encodeCallRecord k number p)) 2 16) = some k ∧
      s32 (bitsOf (leNat (encodeCallRecord k number p)) 18 32) = number ∧
      unpackBytes 82 11 (bitsOf (leNat (encodeCallRecord k number p)) 50 32) (encodeCallRecord k number p) = .ok p := by
  obtain ⟨hheader, h0, h2, h18, h50⟩ := encodeCallHeader_fields k hn hp
  have hfield : ∀ lo n, lo + n ≤ 82 → bitsOf (leNat (encodeCallRecord k number p)) lo n =
      bitsOf (encodeCallHeader k number p.length) lo n :=
    fun _ _ hlo => bitsOf_packBytes p hheader (by decide) hlo
  rw [hfield 0 2 (by decide), hfield 2 16 (by decide), hfield 18 32 (by decide), hfield 50 32 (by decide),
    h0, h2, h18, h50, kindOfTag_kindTag, s32_t32 hn]
  exact ⟨rfl, rfl, rfl, unpackBytes_packBytes p hheader (by decide)⟩

/-- The header of a frame keeps its fields (30_encoding R91). -/
theorem packetBytes_fields (k : Kind) (n : BitVec 32) (c : BitVec 16) (l : BitVec 32) (body : Bytes) :
    u16 (packetBytes k n c l body) 0 = kindTag k ∧ u32 (packetBytes k n c l body) 2 = n.toNat ∧
      u16 (packetBytes k n c l body) 6 = c.toNat ∧ u32 (packetBytes k n c l body) 8 = l.toNat ∧
      (packetBytes k n c l body).drop 12 = body :=
  ⟨layout_u16_kind _ _ _ _ (kindTag_lt k), layout_u32_number _ _ _ _ n.isLt, layout_u16_checksum _ _ _ _ c.isLt,
    layout_u32_length _ _ _ _ l.isLt, layout_drop _ _ _ _ _⟩

theorem decodePkt_packetBytes_ack (n : BitVec 32) (c : BitVec 16) (l : BitVec 32) (body : Bytes) :
    decodePkt (packetBytes .ack n c l body) = .pktAck n c l body := by
  obtain ⟨hk, hn, hc, hl, hbody⟩ := packetBytes_fields .ack n c l body
  simp [decodePkt, hk, hn, hc, hl, hbody]

theorem decodePkt_packetBytes_data (n : BitVec 32) (c : BitVec 16) (l : BitVec 32) (body : Bytes) :
    decodePkt (packetBytes .data n c l body) = .pktData n c l body := by
  obtain ⟨hk, hn, hc, hl, hbody⟩ := packetBytes_fields .data n c l body
  simp [decodePkt, hk, hn, hc, hl, hbody]

section encode
variable (e : EntityId)

theorem encode_transmit (isAck : Bool) (f : Bytes) :
    encode (.transmit e isAck f) = ⟨.act, actRecord 0 e isAck 0 f⟩ := rfl

theorem encode_deliver (p : Bytes) : encode (.deliver e p) = ⟨.act, actRecord 1 e false 0 p⟩ := rfl

theorem encode_startTimer (d : Duration) :
    encode (.startTimer e d) = ⟨.act, actRecord 2 e false d.token.toNat []⟩ := rfl

theorem encode_stopTimer : encode (.stopTimer e) = ⟨.act, actRecord 3 e false 0 []⟩ := rfl

theorem encode_frmEncode (k : Kind) (n : Int) (p : Bytes) :
    encode (.frmEncode k n p) = ⟨.frm, encodeCallRecord k n p⟩ := rfl

end encode

/-- The encoder makes a record that the decoder reads as the operation it was made for: the code is that of the operation's
row, and the fields of the header do not overlap. -/
theorem reads_encode {i : Instr} (h : i.wellFormed = true) : Reads (encode i) i := by
  cases i with
  | idle => exact .idle Laws.OpcodeRow.idle.2 (unpackBytes_packBytes [] (by decide) (by decide))
  | submit p => exact .submit (Laws.OpcodeRow.submit p).2 (unpackBytes_shortRecord (by decide) (of_decide_eq_true h))
  | rx B => exact .rx (Laws.OpcodeRow.rx B).2 (unpackBytes_shortRecord (by decide) (of_decide_eq_true h))
  | timeout => exact .timeout Laws.OpcodeRow.timeout.2 (unpackBytes_packBytes [] (by decide) (by decide))
  | pktAck n c l body => exact .frame (decodePkt_packetBytes_ack n c l body)
  | pktData n c l body => exact .frame (decodePkt_packetBytes_data n c l body)
  | transmit e isAck f =>
    simp only [Instr.wellFormed, Bool.and_eq_true, decide_eq_true_eq, beq_iff_eq] at h
    obtain ⟨hf, hk⟩ := h
    obtain ⟨hop, he, ha, hd, hl, hb⟩ := actRecord_fields (op := 0) (duration := 0) e isAck (by decide) (by decide) hf
    rw [encode_transmit]
    exact .transmit hop he ha hd (by rw [hl, hb]) hk
  | deliver e p =>
    obtain ⟨hop, he, ha, hd, hl, hb⟩ := actRecord_fields (op := 1) (duration := 0) e false (by decide) (by decide)
      (of_decide_eq_true h : fitsLen p)
    rw [encode_deliver]
    exact .deliver hop he ha hd (by rw [hl, hb])
  | startTimer e d =>
    obtain ⟨hop, he, ha, hd, hl, hb⟩ := actRecord_fields (op := 2) (b := []) e false (by decide) d.token.isLt (by decide)
    rw [encode_startTimer]
    exact .startTimer hop he ha (by rw [hd, BitVec.ofNat_toNat, BitVec.setWidth_eq]) hl hb
  | stopTimer e =>
    obtain ⟨hop, he, ha, hd, hl, hb⟩ := actRecord_fields (op := 3) (duration := 0) (b := []) e false (by decide)
      (by decide) (by decide)
    rw [encode_stopTimer]
    exact .stopTimer hop he ha hd hl hb
  | frmEncode k n p =>
    simp only [Instr.wellFormed, Bool.and_eq_true, decide_eq_true_eq] at h
    obtain ⟨hp, hn⟩ := h
    obtain ⟨hop, hk, hnumber, hb⟩ := encodeCallRecord_fields k hn hp
    rw [encode_frmEncode]
    exact .frmEncode hop hk hnumber hb
  | frmDecode b =>
    exact .frmDecode (Laws.OpcodeRow.frmDecode b).2 (unpackBytes_shortRecord (by decide) (of_decide_eq_true h))
  | frmVerify b =>
    exact .frmVerify (Laws.OpcodeRow.frmVerify b).2 (unpackBytes_shortRecord (by decide) (of_decide_eq_true h))

/-- Settles O5: the decoder reads the encoder's record of a well-formed operation as that operation. -/
theorem decodeUndoesEncode : Obligations.DecodeUndoesEncode := fun _ h => (reads_encode h).decode_eq

end Sys2Proof

/-! PROOF. The entity's own actions (30_encoding R104, R105, R110, 43_entity R243): each action list that a step makes holds
only actions of the entity's own, and a trace stays the entity's own when such a list joins it. -/

namespace Sys2Proof.Machine

/-- An action list of the entity's own. -/
def OwnActions (c : Config) (as : List Action) : Prop := ∀ a ∈ as, OwnAction c a

section OwnActions
variable {c : Config}

@[simp] theorem ownActions_nil : OwnActions c [] := by simp [OwnActions]

@[simp] theorem ownActions_cons (a : Action) (as : List Action) :
    OwnActions c (a :: as) ↔ OwnAction c a ∧ OwnActions c as := List.forall_mem_cons

@[simp] theorem ownActions_append (as bs : List Action) :
    OwnActions c (as ++ bs) ↔ OwnActions c as ∧ OwnActions c bs := List.forall_mem_append

@[simp] theorem ownAction_startTimer : OwnAction c (.startTimer c.entityId c.timerInterval) := ⟨rfl, rfl⟩

@[simp] theorem ownAction_stopTimer : OwnAction c (.stopTimer c.entityId) := rfl

@[simp] theorem ownAction_deliver (p : Bytes) : OwnAction c (.deliver c.entityId p) := rfl

theorem ownAction_ack {n : Int} (h0 : -1 ≤ n) (h1 : n < 2147483648) :
    OwnAction c (.transmit c.entityId true (encodeFrame .ack n [])) :=
  ⟨rfl, n, h0, by simp only [seqMax]; omega, rfl⟩

theorem ownAction_data {n : Nat} {p : Bytes} (hn : n < 2147483648) (hp : p.length ≤ c.maxPayload) :
    OwnAction c (.transmit c.entityId false (encodeFrame .data (n : Int) p)) :=
  ⟨rfl, n, p, by simp only [seqMax]; omega, hp, rfl⟩

end OwnActions

variable {s : State}

theorem ownActions_startActions : OwnActions s.cfg (startActions s) := by
  unfold startActions
  split <;> simp

theorem ownActions_sendActions {p : Bytes} (hp : p.length ≤ s.cfg.maxPayload) (hr : s.hasRoom = true) :
    OwnActions s.cfg (sendActions s p) := by
  obtain ⟨-, hmax⟩ := s.hasRoom_iff.1 hr
  refine (ownActions_cons _ _).2 ⟨ownAction_data (by omega) hp, ?_⟩
  split
  · exact ownActions_startActions
  · exact ownActions_nil

theorem Inv.ownActions_rejectActions (h : Inv s) : OwnActions s.cfg (rejectActions s) := by
  have hlast := h.last_ack
  have hmax := h.expected_le_max
  exact (ownActions_cons _ _).2 ⟨ownAction_ack (by omega) (by omega), ownActions_nil⟩

theorem ownActions_acceptActions (p : Bytes) (h : s.expectedSeqNum < 2147483648) :
    OwnActions s.cfg (acceptActions s p) := by
  simp [acceptActions, ownAction_ack (c := s.cfg) (n := s.expectedSeqNum) (by omega) (by omega)]

/-- What a TIMEOUT sends again are the frames that `UB` holds, each the DATA frame of its key (10_state R40 (d)). -/
theorem Inv.ownActions_timeoutActions (h : Inv s) {f : Nat → Bytes}
    (hf : ∀ n, s.windowBase ≤ n → n < s.nextSeqNum → s.unackedBuffer.read n = some (f n)) :
    OwnActions s.cfg (timeoutActions s f) := by
  refine (ownActions_cons _ _).2 ⟨ownAction_startTimer, fun a ha => ?_⟩
  obtain ⟨n, hn, rfl⟩ := List.mem_map.1 ha
  rw [List.mem_range'_1] at hn
  have hmax := h.next_le_max
  obtain ⟨p, hp, hframe⟩ := h.frames n (f n) (hf n (by omega) (by omega))
  exact hframe ▸ ownAction_data (by omega) hp

/-- Frames numbered from `first` up are DATA frames of the entity's own while their numbers last. -/
theorem ownAction_numberedFrames {first : Nat} {ps : List Bytes} (hn : first + ps.length ≤ 2147483648)
    (hp : ∀ p ∈ ps, p.length ≤ s.cfg.maxPayload) :
    ∀ f ∈ numberedFrames first ps, OwnAction s.cfg (.transmit s.cfg.entityId false f.2) := by
  intro f hf
  obtain ⟨j, hj, rfl⟩ := List.mem_mapIdx.1 hf
  exact ownAction_data (by omega) (hp _ (List.getElem_mem hj))

theorem ownActions_drainActions (emptied : Bool) {frames : List (Nat × Bytes)}
    (h : ∀ f ∈ frames, OwnAction s.cfg (.transmit s.cfg.entityId false f.2)) :
    OwnActions s.cfg (drainActions s emptied frames) := by
  cases frames with
  | nil => exact ownActions_nil
  | cons f rest =>
    have hrest : OwnActions s.cfg (rest.map fun g => .transmit s.cfg.entityId false g.2) :=
      List.forall_mem_map.2 fun g hg => h g (List.mem_cons_of_mem f hg)
    cases emptied <;> simp [drainActions, h f List.mem_cons_self, hrest]

theorem Inv.ownActions_afterAck (h : Inv s) (B : Bytes) {m : Nat} (h1 : s.windowBase ≤ m) (h2 : m < s.nextSeqNum) :
    OwnActions s.cfg (afterAck s B m).out.actions := by
  have hframes : ∀ f ∈ numberedFrames s.nextSeqNum (drained s m),
      OwnAction s.cfg (.transmit s.cfg.entityId false f.2) :=
    ownAction_numberedFrames (h.acked B h1 h2).next_le_max fun p hp => h.pending_length p (mem_queue_of_mem_drained hp)
  have hdrain := ownActions_drainActions (decide (m + 1 = s.nextSeqNum)) hframes
  simp only [afterAck, ownActions_append]
  refine ⟨⟨?_, ?_⟩, hdrain⟩ <;> split <;> simp

/-- A trace to which a step adds actions of the entity's own stays the entity's own. -/
theorem OwnTrace.append (h : OwnTrace s) {t : State} (hcfg : t.cfg = s.cfg) {st : Stimulus} {as : List Action}
    (htrace : t.trace = s.trace ++ [⟨st, as⟩]) (has : OwnActions s.cfg as) : OwnTrace t := by
  unfold OwnTrace
  rw [hcfg, htrace]
  exact List.forall_mem_append.2 ⟨h, List.forall_mem_singleton.2 has⟩

theorem RxEffect.keeps_ownTrace {t : State} {B : Bytes} (h : RxEffect s B t) (hi : Inv s) (hs : OwnTrace s) :
    OwnTrace t := by
  cases h with
  | absorbed => exact hs.append rfl rfl ownActions_nil
  | acked m h1 h2 => exact hs.append rfl rfl (hi.ownActions_afterAck B h1 h2)
  | rejected => exact hs.append rfl rfl hi.ownActions_rejectActions
  | accepted p hd _ _ hn =>
    have := number_lt_of_decode hd
    exact hs.append rfl rfl (ownActions_acceptActions p.payload (by omega))

theorem Effect.keeps_ownTrace {t : State} (h : Effect s t) (hi : Inv s) (hs : OwnTrace s) : OwnTrace t := by
  cases h with
  | quiet => exact hs
  | sent p hp hr => exact hs.append rfl rfl (ownActions_sendActions hp hr)
  | queued => exact hs.append rfl rfl ownActions_nil
  | timedOut f hf => exact hs.append rfl rfl (hi.ownActions_timeoutActions hf)
  | received B _ hrx => exact hrx.keeps_ownTrace hi hs

/-- Settles O41: what each effect of an operation adds to the trace are actions of the entity's own. -/
theorem stepEmitsOnlyOwnActions : Obligations.StepEmitsOnlyOwnActions := fun _ _ hi hs hstep =>
  (step_keeps (P := fun u => Inv u ∧ OwnTrace u) (fun _ left h => ⟨h.1.with_outputs _ _ left, h.2⟩)
    (fun _ _ h he => ⟨he.keeps_inv h.1, he.keeps_ownTrace h.1 h.2⟩) ⟨hi, hs⟩ hstep).2

end Sys2Proof.Machine

/-! PROOF. The words of the opcode table (30_encoding R106, log 10), records written out by hand, and IDLE (R102). -/

namespace Sys2Proof.Machine

/-- The stimulus that a table word stands for is read as the word's record. -/
@[simp] theorem record_waitingOfTableWord (nbits w : Nat) :
    (waitingOfTableWord nbits w).record = recordOfTableWord nbits w := by
  by_cases h : nbits = 96 <;> simp [waitingOfTableWord, recordOfTableWord, Waiting.record, h]

theorem decodeTableWord_eq_some_iff {nbits w : Nat} {i : Instr} :
    decodeTableWord nbits w = some i ↔ decode (recordOfTableWord nbits w) = .ok i := by
  unfold decodeTableWord
  cases decode (recordOfTableWord nbits w) <;> simp

/-- Admission does not look at what waits. -/
theorem State.admits_withFetchWord (s : State) (nbits w : Nat) (i : Instr) :
    (s.withFetchWord nbits w).admits i = s.admits i := by
  cases i <;> rfl

/-- A step whose first waiting stimulus offers an operation runs it. -/
theorem step_of_offers {s : State} {v : Waiting} {rest : List Waiting} {i : Instr} (hbox : s.inbox = v :: rest)
    (hv : s.offers v = some i) : step s = exec i { s with inbox := rest } := by
  unfold step
  rw [hbox, State.takeNext_of_offers rest hv]

/-- Settles O4: the word stands first and offers its operation, and without it the state is what it was. -/
theorem tableWordRunsNext : Obligations.TableWordRunsNext := by
  intro s nbits w i hword hadmits
  have hoffers : (s.withFetchWord nbits w).offers (waitingOfTableWord nbits w) = some i := by
    rw [State.offers_eq_some_iff, record_waitingOfTableWord, ← decodeTableWord_eq_some_iff, s.admits_withFetchWord]
    exact ⟨hword, hadmits⟩
  exact step_of_offers rfl hoffers

/-- Settles O7: each record is decoded. -/
theorem writtenOutWordsDecode : Obligations.WrittenOutWordsDecode := by
  unfold Obligations.WrittenOutWordsDecode
  decide

/-- Settles O16: IDLE is no step (43_entity R221). -/
theorem idleChangesNothing : Obligations.IdleChangesNothing := fun _ => rfl

end Sys2Proof.Machine

/-! PROOF. The end-around carry fold (40_framer R132, R133): the value of `fold16` is the only one with its range, its residue
modulo 65535 and its zero, and every law of the fold and of the word sum follows from that. -/

namespace Sys2Proof.Machine

/-- The three properties of R132 (b) to (d) fix the folded value. -/
theorem fold16_eq_of {S a : Nat} (hle : a ≤ 65535) (hmod : a % 65535 = S % 65535) (hzero : a = 0 ↔ S = 0) :
    fold16 S = a := by
  have h1 := fold16_le S
  have h2 := fold16_mod S
  have h3 := fold16_eq_zero S
  omega

theorem fold16_of_le {S : Nat} (h : S ≤ 65535) : fold16 S = S := fold16_eq_of h rfl Iff.rfl

/-- One pass of the fold makes its operand smaller (R132 (a)). -/
theorem pass_lt {S : Nat} (h : 65535 < S) : S % 65536 + S / 65536 < S := by omega

/-- A pass keeps the residue, since 65536 is 1 modulo 65535, and it keeps the number positive. -/
theorem fold16_pass (S : Nat) : fold16 S = fold16 (S % 65536 + S / 65536) := by
  have hmod := fold16_mod (S % 65536 + S / 65536)
  have hzero := fold16_eq_zero (S % 65536 + S / 65536)
  exact fold16_eq_of (fold16_le _) (by omega) (by omega)

theorem fold16_of_pos {S : Nat} (h : 0 < S) : fold16 S = if S % 65535 = 0 then 65535 else S % 65535 := by
  split
  · exact (fold16_eq_ones S).2 ⟨h, ‹_›⟩
  · exact fold16_eq_of (by omega) (by omega) (by omega)

/-- One addition with its carry added back folds one word more into the sum. -/
theorem endAroundAdd_fold16 (S : Nat) {w : Nat} (hw : w ≤ 65535) : endAroundAdd (fold16 S) w = fold16 (S + w) := by
  have hle := fold16_le S
  have hmod := fold16_mod S
  have hzero := fold16_eq_zero S
  unfold endAroundAdd
  split <;> exact (fold16_eq_of (by omega) (by omega) (by omega)).symm

theorem foldl_endAroundAdd_fold16 {ws : List Nat} (S : Nat) (hws : ∀ w ∈ ws, w ≤ 65535) :
    ws.foldl endAroundAdd (fold16 S) = fold16 (S + ws.sum) := by
  induction ws generalizing S with
  | nil => rfl
  | cons w ws ih =>
    obtain ⟨hw, hrest⟩ := List.forall_mem_cons.1 hws
    rw [List.foldl_cons, endAroundAdd_fold16 S hw, ih (S + w) hrest, List.sum_cons, Nat.add_assoc]

/-- Settles O8, from the uniqueness of the folded value; the per-addition form by induction on the words. -/
theorem endAroundFoldLaws : Obligations.EndAroundFoldLaws := by
  refine ⟨fun S => fold16_of_le, fun S h => ⟨pass_lt h, fold16_pass S⟩,
    fun S => ⟨fold16_le S, fold16_mod S, fold16_eq_zero S⟩, fun S => fold16_of_pos, fun ws hws => ?_⟩
  have h := foldl_endAroundAdd_fold16 0 hws
  rwa [fold16_of_le (Nat.zero_le _), Nat.zero_add] at h

theorem toNat_eq_zero_iff (b : Byte) : b.toNat = 0 ↔ b = 0 := BitVec.toNat_inj (y := 0)

theorem words_sum_eq_zero (B : Bytes) : (words B).sum = 0 ↔ ∀ b ∈ B, b = 0 := by
  induction B using words.induct with
  | case1 => simp [words]
  | case2 x => simp [words, toNat_eq_zero_iff]
  | case3 x y rest ih =>
    rw [words, List.sum_cons, List.forall_mem_cons, List.forall_mem_cons, ← ih, ← toNat_eq_zero_iff x,
      ← toNat_eq_zero_iff y]
    omega

theorem ocsum_eq_zero (B : Bytes) : ocsum B = 0 ↔ ∀ b ∈ B, b = 0 := (fold16_eq_zero _).trans (words_sum_eq_zero B)

theorem ocsum_eq_of_perm {B C : Bytes} (h : (words B).Perm (words C)) : ocsum B = ocsum C := congrArg fold16 h.sum_eq

/-- Settles O9: the sum is 0 only when every word is, and a sum does not see the order of its terms. -/
theorem checksumSumLaws : Obligations.ChecksumSumLaws :=
  ⟨fun B => ⟨rfl, ocsum_le B⟩, ocsum_eq_zero, fun _ _ => ocsum_eq_of_perm⟩

end Sys2Proof.Machine

/-! PROOF. Frames from `encode` (40_framer R134, R137, R140): the word sum of the finished frame, what `decode` makes of it, and
the frame as R134's pseudocode patches it together. -/

namespace Sys2Proof.Machine

theorem onesComplement_lt (s : Nat) : onesComplement s < 65536 := by unfold onesComplement; omega

/-- A sum with the complement of its folded value added is a positive multiple of 65535 (R137). -/
theorem add_onesComplement_fold16 (S : Nat) :
    0 < S + onesComplement (fold16 S) ∧ (S + onesComplement (fold16 S)) % 65535 = 0 := by
  have hle := fold16_le S
  have hmod := fold16_mod S
  have hzero := fold16_eq_zero S
  unfold onesComplement
  omega

section Encode
variable (k : Kind) {n : Int} {p : Bytes}

/-- Putting the checksum in place adds exactly the checksum to the word sum (R134). -/
theorem words_encodeFrame_sum (hn : inNumberRange n = true) (hp : p.length < 4294967296) :
    (words (encodeFrame k n p)).sum =
      (words (unsummedFrame k n p)).sum + onesComplement (ocsum (unsummedFrame k n p)) := by
  unfold encodeFrame
  rw [words_layout_sum p (kindTag_lt k) (t32_lt hn) (onesComplement_lt _) hp]
  unfold unsummedFrame
  rw [words_layout_sum p (kindTag_lt k) (t32_lt hn) (by decide) hp]
  omega

theorem verify_encodeFrame (hn : inNumberRange n = true) (hp : p.length < 4294967296) :
    verify (encodeFrame k n p) = true := by
  rw [verify_iff, words_encodeFrame_sum k hn hp]
  exact add_onesComplement_fold16 _

theorem decodeFrame_encodeFrame (hn : inNumberRange n = true) (hp : p.length < 4294967296) :
    decodeFrame (encodeFrame k n p) =
      .packet ⟨kindTag k, n, onesComplement (ocsum (unsummedFrame k n p)), p.length, p⟩ := by
  unfold encodeFrame
  rw [decodeFrame_layout p (kindTag_lt k) (t32_lt hn) (onesComplement_lt _) hp, s32_t32 hn, List.take_length,
    if_neg (Nat.lt_irrefl _)]

end Encode

theorem inNumberRange_of {n : Int} (h0 : -2147483648 ≤ n) (h1 : n < 2147483648) : inNumberRange n = true :=
  decide_eq_true ⟨h0, h1⟩

/-- Settles O10: the checksum makes the word sum a positive multiple of 65535. -/
theorem freshFramesVerify : Obligations.FreshFramesVerify := fun k _ _ h0 h1 hp =>
  verify_encodeFrame k (inNumberRange_of h0 h1) hp

/-- Settles O12: each header field reads back, and the payload is as long as declared. -/
theorem framerRoundTrip : Obligations.FramerRoundTrip := fun k _ _ h0 h1 hp =>
  decodeFrame_encodeFrame k (inNumberRange_of h0 h1) hp

/-- Bytes 6 and 7 of a frame are its checksum field. -/
theorem layout_set_checksum (t n c d l : Nat) (b : Bytes) :
    ((layout t n c l b).set 6 (BitVec.ofNat 8 (d / 256))).set 7 (BitVec.ofNat 8 (d % 256)) = layout t n d l b := by
  have hlow : BitVec.ofNat 8 (d % 256) = BitVec.ofNat 8 d := BitVec.eq_of_toNat_eq (by simp)
  rw [hlow]
  rfl

theorem unsummedFrame_eq (k : Kind) (n : Int) (p : Bytes) :
    unsummedFrame k n p =
      be16 (if k = .ack then 0 else 128) ++ be32 (t32 n) ++ [0, 0] ++ be32 p.length ++ p := by
  cases k <;> rfl

theorem encodeFrame_eq_set_checksum (k : Kind) (n : Int) (p : Bytes) :
    encodeFrame k n p =
      ((unsummedFrame k n p).set 6 (BitVec.ofNat 8 (onesComplement (ocsum (unsummedFrame k n p)) / 256))).set 7
        (BitVec.ofNat 8 (onesComplement (ocsum (unsummedFrame k n p)) % 256)) :=
  (layout_set_checksum _ _ _ _ _ _).symm

theorem exec_frmEncode (k : Kind) (n : Int) (p : Bytes) (s : State) :
    exec (.frmEncode k n p) s = .next (s.answer (.frame (encodeFrame k n p))) := rfl

/-- Settles O14: the frame of `encode` is the unsummed frame with its checksum set. -/
theorem encodeCallAnswersTheFrame : Obligations.EncodeCallAnswersTheFrame := by
  intro s k n p _ _ _
  refine ⟨_, _, _, unsummedFrame_eq k n p, rfl, rfl, ?_⟩
  rw [exec_frmEncode, encodeFrame_eq_set_checksum]
  rfl

end Sys2Proof.Machine

/-! PROOF. What `verify` sees (40_framer R138) and does not see (R139) of a changed frame. -/

namespace Sys2Proof.Machine

/-- `b` is `a` with a power of two below `2 ^ n` added or taken away. -/
def OneBitApart (n a b : Nat) : Prop := ∃ k < n, b = a + 2 ^ k ∨ b + 2 ^ k = a

theorem OneBitApart.add_left {n a b : Nat} (h : OneBitApart n a b) (c : Nat) : OneBitApart n (c + a) (c + b) := by
  obtain ⟨k, hk, h⟩ := h
  exact ⟨k, hk, by omega⟩

theorem OneBitApart.add_right {n a b : Nat} (h : OneBitApart n a b) (c : Nat) : OneBitApart n (a + c) (b + c) := by
  simpa only [Nat.add_comm _ c] using h.add_left c

theorem OneBitApart.mono {m n a b : Nat} (h : OneBitApart m a b) (hmn : m ≤ n) : OneBitApart n a b := by
  obtain ⟨k, hk, h⟩ := h
  exact ⟨k, hk.trans_le hmn, h⟩

/-- A bit of the high byte of a word is eight places up in the word. -/
theorem OneBitApart.shift {n a b : Nat} (h : OneBitApart n a b) : OneBitApart (n + 8) (256 * a) (256 * b) := by
  obtain ⟨k, hk, h⟩ := h
  have hpow : 2 ^ (k + 8) = 256 * 2 ^ k := by rw [Nat.pow_add, Nat.mul_comm]
  exact ⟨k + 8, by omega, by omega⟩

theorem xor_two_pow (a k : Nat) : a ^^^ 2 ^ k = a + 2 ^ k ∨ (a ^^^ 2 ^ k) + 2 ^ k = a := by
  induction k generalizing a with
  | zero =>
    rcases Nat.even_or_odd a with h | h
    · exact .inl (Nat.xor_one_of_even h)
    · have := Nat.xor_one_of_odd h
      have := h.pos
      exact .inr (by simp only [Nat.pow_zero]; omega)
  | succ k ih =>
    have hlow : (a ^^^ 2 ^ (k + 1)) % 2 = a % 2 := by rw [Nat.xor_mod_two_eq, Nat.pow_succ]; omega
    have hhigh : (a ^^^ 2 ^ (k + 1)) / 2 = a / 2 ^^^ 2 ^ k := by
      rw [Nat.xor_div_two, Nat.pow_succ, Nat.mul_div_cancel _ (by decide)]
    have := ih (a / 2)
    have hpow : 2 ^ (k + 1) = 2 * 2 ^ k := by rw [Nat.pow_succ, Nat.mul_comm]
    omega

theorem oneBitApart_flip (b : Byte) {k : Nat} (hk : k < 8) :
    OneBitApart 8 b.toNat (b ^^^ BitVec.ofNat 8 (2 ^ k)).toNat := by
  have hpow : 2 ^ k < 2 ^ 8 := Nat.pow_lt_pow_right (by decide) hk
  rw [BitVec.toNat_xor, BitVec.toNat_ofNat, Nat.mod_eq_of_lt hpow]
  exact ⟨k, hk, xor_two_pow _ k⟩

/-- A flipped bit of a frame changes its word sum by a power of two up to `2 ^ 15` (R138). -/
theorem words_flipBit_sum {B : Bytes} {i k : Nat} (hi : i < B.length) (hk : k < 8) :
    OneBitApart 16 (words B).sum (words (flipBit B i k)).sum := by
  induction B using words.induct generalizing i with
  | case1 => simp at hi
  | case2 x =>
    obtain rfl : i = 0 := by simpa using hi
    exact (oneBitApart_flip x hk).shift.add_right 0
  | case3 x y rest ih =>
    match i with
    | 0 => exact ((oneBitApart_flip x hk).shift.add_right y.toNat).add_right _
    | 1 => exact (((oneBitApart_flip y hk).mono (by decide)).add_left (256 * x.toNat)).add_right _
    | i + 2 => exact (ih (by simpa using hi)).add_left (256 * x.toNat + y.toNat)

/-- No power of two up to `2 ^ 15` is a multiple of 65535. -/
theorem OneBitApart.not_both_multiples {a b : Nat} (h : OneBitApart 16 a b) (ha : a % 65535 = 0) : b % 65535 ≠ 0 := by
  obtain ⟨k, hk, h⟩ := h
  have hpos : 0 < 2 ^ k := Nat.two_pow_pos k
  have hle : 2 ^ k ≤ 2 ^ 15 := Nat.pow_le_pow_right (by decide) (by omega)
  omega

theorem verify_flipBit {B : Bytes} {i k : Nat} (hi : i < B.length) (hk : k < 8) (hB : verify B = true) :
    verify (flipBit B i k) = false := by
  obtain ⟨-, hmod⟩ := (verify_iff B).1 hB
  have hflip := (words_flipBit_sum hi hk).not_both_multiples hmod
  exact Bool.eq_false_iff.2 fun h => hflip ((verify_iff _).1 h).2

theorem corrupt_of_verify_false {B : Bytes} (h : verify B = false) : corrupt B = true := by
  unfold corrupt
  split
  · simp [h]
  · rfl

/-- Settles O11: the flip moves the word sum off the multiples of 65535. -/
theorem singleBitFlipIsDetected : Obligations.SingleBitFlipIsDetected := fun _ _ _ hi hk hB =>
  have hflip := verify_flipBit hi hk hB
  ⟨hflip, corrupt_of_verify_false hflip⟩

theorem verify_eq_of_ocsum_eq {B C : Bytes} (h : ocsum C = ocsum B) : verify C = verify B := congrArg (· == 65535) h

/-- A word of all ones more does not change the folded value of a positive sum. -/
theorem fold16_add_ones {S : Nat} (h : 0 < S) : fold16 (S + 65535) = fold16 S := by
  rw [fold16_of_pos h, fold16_of_pos (by omega), Nat.add_mod_right]

theorem ocsum_of_zero_word_to_ones {B C : Bytes} {before after : List Nat} (hB : words B = before ++ 0 :: after)
    (hC : words C = before ++ 65535 :: after) (hpos : 0 < (words B).sum) : ocsum C = ocsum B := by
  have hsum : (words C).sum = (words B).sum + 65535 := by simp [hB, hC]; omega
  unfold ocsum
  rw [hsum, fold16_add_ones hpos]

theorem words_replicate_zero_sum (z : Nat) : (words (List.replicate z 0)).sum = 0 :=
  (words_sum_eq_zero _).2 fun _ h => List.eq_of_mem_replicate h

/-- Zero bytes after a sequence add nothing to its word sum; after an odd length the first of them is the pad byte. -/
theorem words_append_zeros_sum (B : Bytes) (z : Nat) : (words (B ++ List.replicate z 0)).sum = (words B).sum := by
  induction B using words.induct with
  | case1 => exact words_replicate_zero_sum z
  | case2 x =>
    cases z with
    | zero => rfl
    | succ z => exact congrArg (256 * x.toNat + 0 + ·) (words_replicate_zero_sum z)
  | case3 x y rest ih => exact congrArg (256 * x.toNat + y.toNat + ·) ih

theorem byteAt_append {B : Bytes} (Z : Bytes) {i : Nat} (h : i < B.length) : byteAt (B ++ Z) i = byteAt B i := by
  unfold byteAt
  rw [List.getD_append _ _ _ _ h]

theorem u16_append {B : Bytes} (Z : Bytes) {i : Nat} (h : i + 1 < B.length) : u16 (B ++ Z) i = u16 B i := by
  unfold u16
  rw [byteAt_append Z (by omega), byteAt_append Z h]

theorem u32_append {B : Bytes} (Z : Bytes) {i : Nat} (h : i + 3 < B.length) : u32 (B ++ Z) i = u32 B i := by
  unfold u32
  rw [byteAt_append Z (by omega), byteAt_append Z (by omega), byteAt_append Z (by omega), byteAt_append Z h]

/-- `decode` of a sequence that holds its header and its declared payload (R135). -/
theorem decodeFrame_of_complete {B : Bytes} (hhead : 12 ≤ B.length) (hbody : 12 + u32 B 8 ≤ B.length) :
    decodeFrame B = .packet ⟨u16 B 0, s32 (u32 B 2), u16 B 6, u32 B 8, (B.drop 12).take (u32 B 8)⟩ := by
  unfold decodeFrame
  rw [if_neg (by omega), if_neg (by omega), if_neg (by omega)]

/-- `decode` ignores what follows the declared payload (R135). -/
theorem decodeFrame_append {B : Bytes} {p : Packet} (h : decodeFrame B = .packet p) (Z : Bytes) :
    decodeFrame (B ++ Z) = .packet p := by
  obtain ⟨hhead, hbody, rfl⟩ := packet_of_decode h
  have hlen : u32 (B ++ Z) 8 = u32 B 8 := u32_append Z (by omega)
  have hpayload : ((B ++ Z).drop 12).take (u32 B 8) = (B.drop 12).take (u32 B 8) := by
    rw [List.drop_append_of_le_length hhead, List.take_append_of_le_length (by simp; omega)]
  rw [decodeFrame_of_complete (by simp; omega) (by simp [hlen]; omega), hlen, hpayload, u16_append Z (by omega),
    u32_append Z (by omega), u16_append Z (by omega)]

/-- Settles O13: each of these changes keeps the folded word sum. -/
theorem damageThatVerifyCannotSee : Obligations.DamageThatVerifyCannotSee :=
  ⟨verify_iff,
    fun _ _ h => verify_eq_of_ocsum_eq (ocsum_eq_of_perm h).symm,
    fun _ _ _ _ hB hC hpos => verify_eq_of_ocsum_eq (ocsum_of_zero_word_to_ones hB hC hpos),
    fun B z => ⟨verify_eq_of_ocsum_eq (congrArg fold16 (words_append_zeros_sum B z)),
      fun _ h => decodeFrame_append h _⟩⟩

end Sys2Proof.Machine

/-! PROOF. DECODE and VERIFY as calls (40_framer R135, R136, R143): each branch of `decode`, and equality with `0xFFFF`. -/

namespace Sys2Proof.Machine

section
variable {B : Bytes}

theorem decodeFrame_of_no_tag (h : B.length < 2) : decodeFrame B = .fail none := if_pos h

theorem decodeFrame_of_short_header (h2 : 2 ≤ B.length) (h12 : B.length < 12) :
    decodeFrame B = .fail (some (u16 B 0)) := by
  unfold decodeFrame
  rw [if_neg (by omega), if_pos h12]

theorem decodeFrame_of_short_body (h12 : 12 ≤ B.length) (h : B.length < 12 + u32 B 8) :
    decodeFrame B = .fail (some (u16 B 0)) := by
  unfold decodeFrame
  rw [if_neg (by omega), if_neg (by omega), if_pos h]

theorem verify_eq_false_of_lt (h : ocsum B ≤ 65534) : verify B = false := beq_false_of_ne (by omega)

end

theorem exec_frmDecode (B : Bytes) (s : State) : exec (.frmDecode B) s = .next (s.answer (.decoded (decodeFrame B))) := rfl

theorem exec_frmVerify (B : Bytes) (s : State) : exec (.frmVerify B) s = .next (s.answer (.verdict (verify B))) := rfl

/-- Settles O15, branch by branch of `decode`. -/
theorem decodeAndVerifyCallsAnswer : Obligations.DecodeAndVerifyCallsAnswer := by
  refine fun s B => ⟨⟨decodeFrame B, exec_frmDecode B s, decodeFrame_of_no_tag, decodeFrame_of_short_header,
    decodeFrame_of_short_body, fun hhead hbody => ?_⟩, exec_frmVerify B s, fun _ => verify_eq_false_of_lt⟩
  refine ⟨_, decodeFrame_of_complete hhead hbody, rfl, rfl, rfl, rfl, ?_, fun j hj => ?_⟩
  · simp only [List.length_take, List.length_drop]; omega
  · rw [List.getElem?_take_of_lt hj, List.getElem?_drop]

end Sys2Proof.Machine

/-! PROOF. The timer discipline (41_sender R182, 10_state R28): what the automaton makes of the timer events that each effect
of an operation adds to the trace. -/

namespace Sys2Proof.Machine

variable {s : State}

section entryTimerEvents
variable (as : List Action)
@[simp] theorem entryTimerEvents_submit (p : Bytes) : entryTimerEvents ⟨.submit p, as⟩ = timerActions as := by
  simp [entryTimerEvents]
@[simp] theorem entryTimerEvents_rx (B : Bytes) : entryTimerEvents ⟨.rx B, as⟩ = timerActions as := by
  simp [entryTimerEvents]
@[simp] theorem entryTimerEvents_timeout : entryTimerEvents ⟨.timeout, as⟩ = .fired :: timerActions as := by
  simp [entryTimerEvents]
end entryTimerEvents

/-- A SUBMIT that is sent arms the timer if the window was empty, and stops before it if one was outstanding (R164, R166). -/
theorem timerActions_sendActions (s : State) (p : Bytes) :
    timerActions (sendActions s p) =
      if s.windowEmpty then (if s.timerRunning then [.stop, .start] else [.start]) else [] := by
  unfold sendActions
  split
  · rw [timerActions_dataFrame, timerActions_startActions]
  · rfl

/-- A TIMEOUT arms the timer with a bare START and sends frames, whatever its window holds (R177). -/
@[simp] theorem timerActions_timeoutActions (s : State) (f : Nat → Bytes) :
    timerActions (timeoutActions s f) = [.start] := by
  simp [timeoutActions]

/-- The discipline goes on with a step whose timer events lead from the old `timer_running` to the new one. -/
theorem TimerDiscipline.append (h : TimerDiscipline s) {t : State} {e : TraceEntry} (htrace : t.trace = s.trace ++ [e])
    (hevents : timerAutomaton s.timerRunning (entryTimerEvents e) = some t.timerRunning) : TimerDiscipline t := by
  unfold TimerDiscipline at h ⊢
  rw [htrace, timerEvents_append, timerAutomaton_append, h]
  exact hevents

theorem timerAutomaton_sendActions (s : State) (p : Bytes) :
    timerAutomaton s.timerRunning (timerActions (sendActions s p)) = some (s.timerRunning || s.windowEmpty) := by
  rw [timerActions_sendActions]
  cases s.windowEmpty <;> cases s.timerRunning <;> rfl

theorem timerAutomaton_afterAck (s : State) (B : Bytes) (m : Nat) :
    timerAutomaton s.timerRunning (timerActions (afterAck s B m).out.actions) = some (afterAck s B m).timerRunning := by
  rw [timerActions_afterAck]
  cases s.timerRunning <;> cases (afterAck s B m).timerRunning <;> rfl

theorem RxEffect.keeps_timerDiscipline {t : State} {B : Bytes} (h : RxEffect s B t) (hs : TimerDiscipline s) :
    TimerDiscipline t := by
  cases h with
  | absorbed => exact hs.append rfl (by simp [timerAutomaton])
  | acked m => exact hs.append rfl (by rw [entryTimerEvents_rx]; exact timerAutomaton_afterAck s B m)
  | rejected => exact hs.append rfl (by simp [rejectActions, timerAutomaton])
  | accepted => exact hs.append rfl (by simp [acceptActions, timerAutomaton])

theorem Effect.keeps_timerDiscipline {t : State} (h : Effect s t) (hs : TimerDiscipline s) : TimerDiscipline t := by
  cases h with
  | quiet => exact hs
  | sent p => exact hs.append rfl (by rw [entryTimerEvents_submit]; exact timerAutomaton_sendActions s p)
  | queued => exact hs.append rfl (by simp [timerAutomaton])
  | timedOut => exact hs.append rfl (by simp [timerAutomaton])
  | received _ _ hrx => exact hrx.keeps_timerDiscipline hs

/-- Settles O37: the timer events of each effect lead the automaton from the old `timer_running` to the new one. -/
theorem stepKeepsTheTimerDiscipline : Obligations.StepKeepsTheTimerDiscipline := fun _ _ hs hstep =>
  step_keeps (fun _ _ h => h) (fun _ _ h he => he.keeps_timerDiscipline h) hs hstep

end Sys2Proof.Machine

/-! PROOF. The whole next state of SUBMIT, of TIMEOUT and of a received frame (41_sender R163, R166, R167, R177, R178), each for
the states in which it is taken. -/

namespace Sys2Proof.Machine

variable {s : State} {p : Bytes}

/-- Where there is room, a payload of legal length is admitted, however long the queue is (43_entity R228). -/
theorem State.submitAdmitted_of_room (hp : p.length ≤ s.cfg.maxPayload) (hr : s.hasRoom = true) :
    s.submitAdmitted p = true := by
  simp [submitAdmitted, hp, hr]

theorem exec_submit_of_room (ha : s.submitAdmitted p = true) (hr : s.hasRoom = true) :
    exec (.submit p) s = .next { s with
      nextSeqNum := s.nextSeqNum + 1
      unackedBuffer := s.unackedBuffer.write s.nextSeqNum (newFrame s p)
      timerRunning := s.timerRunning || s.windowEmpty
      out := ⟨sendActions s p, none, none⟩
      trace := s.trace ++ [⟨.submit p, sendActions s p⟩] } := by
  have hr' : s.beginStep.hasRoom = true := hr
  simp only [exec, execSubmit, ha, hr', if_true, State.sendNew_eq]
  rfl

theorem exec_submit_of_no_room (ha : s.submitAdmitted p = true) (hr : s.hasRoom = false) :
    exec (.submit p) s = .next { s with
      pendingQueue := s.pendingQueue ++ [p]
      out := ⟨[], none, none⟩
      trace := s.trace ++ [⟨.submit p, []⟩] } := by
  have hr' : s.beginStep.hasRoom = false := hr
  simp only [exec, execSubmit, ha, hr', if_true, Bool.false_eq_true, if_false]
  rfl

theorem exec_rx_of_admitted {B : Bytes} (ha : s.frameAdmitted B = true) :
    exec (.rx B) s = .next ((s.beginStep.rxDispatch B).endStep (.rx B)) := if_pos ha

/-- TIMEOUT completes when `UB` holds the frames `f n` of its window. -/
theorem exec_timeout_of_window {f : Nat → Bytes}
    (hf : ∀ n, s.windowBase ≤ n → n < s.nextSeqNum → s.unackedBuffer.read n = some (f n)) :
    exec .timeout s = .next { s with
      timerRunning := true
      out := ⟨timeoutActions s f, none, none⟩
      trace := s.trace ++ [⟨.timeout, timeoutActions s f⟩] } := by
  have hloop := State.retransmit_eq (s.nextSeqNum - s.windowBase) s.windowBase s.rearmed f
    fun k h1 h2 => hf k h1 (by omega)
  rw [show exec .timeout s = execTimeout s from rfl, execTimeout_eq, hloop]
  rfl

/-- With an empty window TIMEOUT is a bare START (R178). -/
theorem exec_timeout_of_empty_window (he : s.windowBase = s.nextSeqNum) :
    exec .timeout s = .next { s with
      timerRunning := true
      out := ⟨[.startTimer s.cfg.entityId s.cfg.timerInterval], none, none⟩
      trace := s.trace ++ [⟨.timeout, [.startTimer s.cfg.entityId s.cfg.timerInterval]⟩] } := by
  have hactions : timeoutActions s (fun _ => []) = [.startTimer s.cfg.entityId s.cfg.timerInterval] := by
    simp [timeoutActions, he]
  rw [exec_timeout_of_window (f := fun _ => []) (by omega), hactions]

/-- Settles O18: `newFrame` and `sendActions` written out. -/
theorem submitWithRoomSends : Obligations.SubmitWithRoomSends := by
  intro s p hp hr
  rw [exec_submit_of_room (State.submitAdmitted_of_room hp hr) hr]
  simp only [sendActions, State.windowEmpty_iff]
  rfl

/-- Settles O19: the branch of R167 that only queues. -/
theorem submitWithoutRoomQueues : Obligations.SubmitWithoutRoomQueues := fun _ _ => exec_submit_of_no_room

/-- A receiver whose numbers are used up accepts no frame: no decoded number reaches 2^31 (R324). -/
theorem RxEffect.receiver_of_exhausted {t : State} {B : Bytes} (h : RxEffect s B t) (hx : 2147483648 ≤ s.expectedSeqNum) :
    t.expectedSeqNum = s.expectedSeqNum ∧ t.lastAckNum = s.lastAckNum ∧ deliveredPayloads t.out.actions = [] := by
  cases h with
  | absorbed => exact ⟨rfl, rfl, rfl⟩
  | acked m => exact ⟨rfl, rfl, deliveredPayloads_afterAck s B m⟩
  | rejected => exact ⟨rfl, rfl, rfl⟩
  | accepted p hd _ _ hn =>
    have := number_lt_of_decode hd
    omega

/-- Settles O21: at 2^31 there is no room (R163), and no DATA frame carries the expected number. -/
theorem sequenceSpaceEnds : Obligations.SequenceSpaceEnds := by
  refine ⟨fun s p hx ha => ?_, fun s B hx ha => ?_⟩
  · have hr : s.hasRoom = false := s.hasRoom_eq_false_iff.2 (.inr hx)
    exact ⟨_, exec_submit_of_no_room ha hr, rfl, rfl, rfl, rfl⟩
  · exact ⟨_, exec_rx_of_admitted ha, (rx_effect s B).receiver_of_exhausted hx⟩

/-- Settles O22: the frames sent again are those that `UB` holds. -/
theorem timeoutResendsTheWindow : Obligations.TimeoutResendsTheWindow := fun s hs =>
  exec_timeout_of_window (f := fun n => (s.unackedBuffer.read n).getD [])
    fun n h1 h2 => by rw [← Option.get_eq_getD (h := hs n h1 h2), Option.some_get]

/-- Settles O23: the SUBMIT after it finds the window still empty and a timer outstanding. -/
theorem timeoutAtAnEmptyWindow : Obligations.TimeoutAtAnEmptyWindow := by
  refine fun s he => ⟨_, exec_timeout_of_empty_window he, rfl, fun p hp hr =>
    ⟨_, exec_submit_of_room (State.submitAdmitted_of_room hp hr) hr, ?_⟩⟩
  simp [sendActions, startActions, State.windowEmpty, he, newFrame]

end Sys2Proof.Machine

/-! PROOF. The four branches of `on_ack_received` (41_sender R169 to R175), for a frame of kind ACK with a complete header. -/

namespace Sys2Proof.Machine

section branches
variable (s : State)

theorem State.onAckReceived_corrupt : s.onAckReceived none = s.classify .ackCorrupt := rfl

theorem State.onAckReceived_stale {k : Int} (h : k < (s.windowBase : Int)) :
    s.onAckReceived (some k) = s.classify .ackStale := if_pos h

theorem State.onAckReceived_ahead {k : Int} (h1 : (s.windowBase : Int) ≤ k) (h2 : (s.nextSeqNum : Int) ≤ k) :
    s.onAckReceived (some k) = s.classify .ackAhead := by
  rw [onAckReceived, if_neg (by omega), if_pos h2]

theorem State.onAckReceived_accept {m : Nat} (h1 : s.windowBase ≤ m) (h2 : m < s.nextSeqNum) :
    s.onAckReceived (some (m : Int)) = (s.classify .ackAccept).acceptAck m := by
  rw [onAckReceived, if_neg (by omega), if_neg (by omega), Int.toNat_natCast]

end branches

section pktAck
variable {s : State} {n : BitVec 32} {c : BitVec 16} {l : BitVec 32} {body : Bytes}

theorem State.frameAdmitted_packetBytes (k : Kind) (h : body.length ≤ s.cfg.maxPayload) :
    s.frameAdmitted (packetBytes k n c l body) = true := by
  simp [frameAdmitted, h]

theorem exec_pktAck_of_corrupt (hlen : body.length ≤ s.cfg.maxPayload)
    (h : verify (packetBytes .ack n c l body) = false ∨ body.length < l.toNat) :
    exec (.pktAck n c l body) s =
      .next ((s.beginStep.onAckReceived none).endStep (.rx (packetBytes .ack n c l body))) := by
  have hbad : ¬ (verify (packetBytes .ack n c l body) = true ∧ l.toNat ≤ body.length) := by
    rintro ⟨hv, hl⟩
    rcases h with h | h
    · simp [h] at hv
    · omega
  simp only [exec, execPktAck, State.frameAdmitted_packetBytes .ack hlen, if_true, if_neg hbad]

theorem exec_pktAck_of_good (hlen : body.length ≤ s.cfg.maxPayload)
    (hv : verify (packetBytes .ack n c l body) = true) (hl : l.toNat ≤ body.length) :
    exec (.pktAck n c l body) s =
      .next ((s.beginStep.onAckReceived (some n.toInt)).endStep (.rx (packetBytes .ack n c l body))) := by
  simp only [exec, execPktAck, State.frameAdmitted_packetBytes .ack hlen, if_true, if_pos (And.intro hv hl)]

end pktAck

/-- Settles O24: each of the three branches gives the step its class and nothing else. -/
theorem ackNotAcceptedChangesNothing : Obligations.AckNotAcceptedChangesNothing := by
  refine fun s n c l body hlen => ⟨fun h => ?_, fun hv hl => ⟨fun h => ?_, fun h1 h2 => ?_⟩⟩
  · rw [exec_pktAck_of_corrupt hlen h, s.beginStep.onAckReceived_corrupt]; rfl
  · rw [exec_pktAck_of_good hlen hv hl, s.beginStep.onAckReceived_stale h]; rfl
  · rw [exec_pktAck_of_good hlen hv hl, s.beginStep.onAckReceived_ahead h1 h2]; rfl

/-- Settles O25: the accepted branch ends in `afterAck`, whose drain is in closed form. -/
theorem ackAcceptedSlidesAndDrains : Obligations.AckAcceptedSlidesAndDrains := by
  intro s n c l body m hlen hv hl hn h1 h2
  rw [exec_pktAck_of_good hlen hv hl, hn, s.beginStep.onAckReceived_accept h1 h2, afterAck_eq s _ m h2]
  rfl

end Sys2Proof.Machine

/-! PROOF. The timer actions of each kind of step (41_sender R182). -/

namespace Sys2Proof.Machine

variable {s : State}

/-- `UB` holds every key of its window (10_state R24). -/
theorem Inv.read_isSome (h : Inv s) {n : Nat} (h1 : s.windowBase ≤ n) (h2 : n < s.nextSeqNum) :
    (s.unackedBuffer.read n).isSome = true := by
  rw [Memory.read_isSome_iff, h.domain, List.mem_range'_1]
  omega

theorem count_start_sendActions_le (s : State) (p : Bytes) : (timerActions (sendActions s p)).count .start ≤ 1 := by
  rw [timerActions_sendActions]
  cases s.windowEmpty <;> cases s.timerRunning <;> decide

section RxEffect
variable {t : State} {B : Bytes}

theorem RxEffect.timerActions_of_not_accepted (h : RxEffect s B t) (hc : rxClassOf s B ≠ .ackAccept) :
    timerActions t.out.actions = [] := by
  cases h with
  | absorbed => rfl
  | acked m _ _ hacc => exact absurd hacc hc
  | rejected => rfl
  | accepted => rfl

/-- An ACK is accepted while a packet is unacknowledged, and then a timer is outstanding (10_state R28, 41_sender R165). -/
theorem RxEffect.timerActions_of_accepted (h : RxEffect s B t) (hi : Inv s) (hc : rxClassOf s B = .ackAccept) :
    timerActions t.out.actions = .stop :: if t.timerRunning then [.start] else [] := by
  cases h with
  | absorbed k hk hcls => simp [← hcls, hc] at hk
  | acked m h1 h2 =>
    have hrunning : s.timerRunning = true := hi.timer (by omega)
    rw [timerActions_afterAck, hrunning]
    rfl
  | rejected k hk hcls => simp [← hcls, hc] at hk
  | accepted _ _ _ _ _ hcls => simp [hc] at hcls

end RxEffect

/-- Settles O43, from the action list of each kind of step. -/
theorem timerActionsPerStep : Obligations.TimerActionsPerStep := by
  refine fun s hi => ⟨fun p t ha h => ?_, fun t h => ?_, fun B t ha h => ?_⟩
  · cases hr : s.hasRoom with
    | true =>
      cases (exec_submit_of_room ha hr).symm.trans h
      exact count_start_sendActions_le s p
    | false =>
      cases (exec_submit_of_no_room ha hr).symm.trans h
      exact Nat.zero_le 1
  · cases (timeoutResendsTheWindow s fun n => hi.read_isSome).symm.trans h
    exact timerActions_timeoutActions s fun n => (s.unackedBuffer.read n).getD []
  · cases (exec_rx_of_admitted ha).symm.trans h
    have heffect := rx_effect s B
    by_cases hc : rxClassOf s B = .ackAccept
    · rw [if_pos hc, heffect.timerActions_of_accepted hi hc]
      split <;> decide
    · rw [if_neg hc]
      exact heffect.timerActions_of_not_accepted hc

end Sys2Proof.Machine

/-! PROOF. The receiver's two orders over a trace (42_receiver R206, R209): what each effect of an operation adds to the
deliveries and to the ACK numbers. Only a received DATA frame adds to either. -/

namespace Sys2Proof.Machine

variable {s : State}

section sender
variable (s : State) (p : Bytes) (f : Nat → Bytes)

@[simp] theorem deliveredPayloads_sendActions : deliveredPayloads (sendActions s p) = [] := by
  unfold sendActions
  split <;> simp

@[simp] theorem ackNumbersOf_sendActions : ackNumbersOf (sendActions s p) = [] := by
  unfold sendActions
  split <;> simp

@[simp] theorem deliveredPayloads_timeoutActions : deliveredPayloads (timeoutActions s f) = [] := by
  simp [timeoutActions]

@[simp] theorem ackNumbersOf_timeoutActions : ackNumbersOf (timeoutActions s f) = [] := by
  simp [timeoutActions]

end sender

/-- The packet of a received frame that decodes and verifies is good. -/
theorem goodPacket_rx {B : Bytes} {p : Packet} (hd : decodeFrame B = .packet p) (hv : verify B = true) :
    goodPacket (.rx B) = some p := by
  simp [goodPacket, hd, hv]

/-- A step that delivers nothing and accepts no frame keeps the deliveries in order. -/
theorem InOrderDelivery.append_silent (h : InOrderDelivery s) {t : State} {e : TraceEntry}
    (htrace : t.trace = s.trace ++ [e]) (hexpected : t.expectedSeqNum = s.expectedSeqNum)
    (hsilent : deliveredPayloads e.actions = []) : InOrderDelivery t := by
  have hviews : deliveries t.trace = deliveries s.trace := by simp [htrace, hsilent]
  unfold InOrderDelivery
  rw [hviews, hexpected]
  exact h

/-- The next delivery in order is that of a good DATA frame whose number is `expected_seq_num`. -/
theorem InOrderDelivery.append_delivery (h : InOrderDelivery s) {t : State} {e : TraceEntry} {p : Packet}
    (htrace : t.trace = s.trace ++ [e]) (hexpected : t.expectedSeqNum = s.expectedSeqNum + 1)
    (hdelivered : deliveredPayloads e.actions = [p.payload]) (hgood : goodPacket e.stimulus = some p)
    (hk : p.kind = 128) (hn : p.number = (s.expectedSeqNum : Int)) : InOrderDelivery t := by
  obtain ⟨hcount, horder⟩ := h
  have hviews : deliveries t.trace = deliveries s.trace ++ [(some p, p.payload)] := by
    simp [htrace, hdelivered, hgood]
  refine ⟨by simp [hviews, hcount, hexpected], fun k d hkd => ?_⟩
  rw [hviews, List.getElem?_append] at hkd
  split at hkd
  · exact horder k d hkd
  · next hge =>
    rw [List.getElem?_singleton] at hkd
    split at hkd
    · cases hkd
      exact ⟨p, rfl, hk, by omega⟩
    · cases hkd

theorem RxEffect.keeps_inOrderDelivery {t : State} {B : Bytes} (h : RxEffect s B t) (hs : InOrderDelivery s) :
    InOrderDelivery t := by
  cases h with
  | absorbed => exact hs.append_silent rfl rfl rfl
  | acked m => exact hs.append_silent rfl rfl (deliveredPayloads_afterAck s B m)
  | rejected => exact hs.append_silent rfl rfl rfl
  | accepted p hd hv hk hn => exact hs.append_delivery rfl rfl rfl (goodPacket_rx hd hv) hk hn

theorem Effect.keeps_inOrderDelivery {t : State} (h : Effect s t) (hs : InOrderDelivery s) : InOrderDelivery t := by
  cases h with
  | quiet => exact hs
  | sent p => exact hs.append_silent rfl rfl (deliveredPayloads_sendActions s p)
  | queued => exact hs.append_silent rfl rfl rfl
  | timedOut f => exact hs.append_silent rfl rfl (deliveredPayloads_timeoutActions s f)
  | received _ _ hrx => exact hrx.keeps_inOrderDelivery hs

/-- Settles O38: only an accepted DATA frame delivers, and its number is the count of the deliveries before it. -/
theorem stepKeepsInOrderDelivery : Obligations.StepKeepsInOrderDelivery := fun _ _ hs hstep =>
  step_keeps (fun _ _ h => h) (fun _ _ h he => he.keeps_inOrderDelivery h) hs hstep

/-- The number of an ACK frame reads back (40_framer R140). -/
theorem ackNumbersOf_ack {n : Int} (hn : inNumberRange n = true) (e : EntityId) :
    ackNumbersOf [.transmit e true (encodeFrame .ack n [])] = [n] := by
  rw [ackNumbersOf_ackFrame, ackNumbersOf_nil, encodeFrame, layout_u32_number _ _ _ _ (t32_lt hn), s32_t32 hn]

/-- The walk goes on with a step whose ACK numbers lead from the old `last_ack_num` to the new one. -/
theorem AckOrder.append (h : AckOrder s) {t : State} {e : TraceEntry} (htrace : t.trace = s.trace ++ [e])
    (hwalk : ackWalk s.lastAckNum (ackNumbersOf e.actions) = some t.lastAckNum) : AckOrder t := by
  unfold AckOrder at h ⊢
  rw [htrace, ackNumbers_append, ackWalk_append, h]
  exact hwalk

theorem Inv.ackNumbersOf_rejectActions (h : Inv s) : ackNumbersOf (rejectActions s) = [s.lastAckNum] := by
  have hlast := h.last_ack
  have hmax := h.expected_le_max
  exact ackNumbersOf_ack (inNumberRange_of (by omega) (by omega)) s.cfg.entityId

theorem ackNumbersOf_acceptActions (p : Bytes) (h : s.expectedSeqNum < 2147483648) :
    ackNumbersOf (acceptActions s p) = [(s.expectedSeqNum : Int)] :=
  ackNumbersOf_ack (inNumberRange_of (by omega) (by omega)) s.cfg.entityId

/-- A re-sent ACK repeats the last number, a new one is the next number by 10_state R31. -/
theorem RxEffect.keeps_ackOrder {t : State} {B : Bytes} (h : RxEffect s B t) (hi : Inv s) (hs : AckOrder s) :
    AckOrder t := by
  cases h with
  | absorbed => exact hs.append rfl rfl
  | acked m => exact hs.append rfl (congrArg (ackWalk s.lastAckNum) (ackNumbersOf_afterAck s B m))
  | rejected => exact hs.append rfl (by simp [hi.ackNumbersOf_rejectActions, ackWalk])
  | accepted p hd _ _ hn =>
    have hmax := number_lt_of_decode hd
    have hlast := hi.last_ack
    exact hs.append rfl (by simp [ackNumbersOf_acceptActions p.payload (s := s) (by omega), ackWalk, hlast])

theorem Effect.keeps_ackOrder {t : State} (h : Effect s t) (hi : Inv s) (hs : AckOrder s) : AckOrder t := by
  cases h with
  | quiet => exact hs
  | sent p => exact hs.append rfl (congrArg (ackWalk s.lastAckNum) (ackNumbersOf_sendActions s p))
  | queued => exact hs.append rfl rfl
  | timedOut f => exact hs.append rfl (congrArg (ackWalk s.lastAckNum) (ackNumbersOf_timeoutActions s f))
  | received _ _ hrx => exact hrx.keeps_ackOrder hi hs

/-- Settles O39: the ACK numbers of each effect lead the walk from the old `last_ack_num` to the new one. -/
theorem stepKeepsAckOrder : Obligations.StepKeepsAckOrder := fun _ _ hi hs hstep =>
  (step_keeps (P := fun u => Inv u ∧ AckOrder u) (fun _ left h => ⟨h.1.with_outputs _ _ left, h.2⟩)
    (fun _ _ h he => ⟨he.keeps_inv h.1, he.keeps_ackOrder h.1 h.2⟩) ⟨hi, hs⟩ hstep).2

end Sys2Proof.Machine

/-! PROOF. The three branches of `on_data_received` (42_receiver R201 to R204) for a frame of kind DATA with a complete header,
and what answers a DATA frame that is rejected, whatever its bytes (R205, R207). -/

namespace Sys2Proof.Machine

section branches
variable (s : State)

theorem State.onDataReceived_corrupt : s.onDataReceived none = (s.classify .dataCorrupt).sendLastAck := rfl

theorem State.onDataReceived_unexpected {k : Int} (payload : Bytes) (h : k ≠ (s.expectedSeqNum : Int)) :
    s.onDataReceived (some (k, payload)) = (s.classify .dataUnexpected).sendLastAck := if_neg h

theorem State.onDataReceived_accept {k : Int} (payload : Bytes) (h : k = (s.expectedSeqNum : Int)) :
    s.onDataReceived (some (k, payload)) = (s.classify .dataAccept).acceptData payload := if_pos h

end branches

section pktData
variable {s : State} {n : BitVec 32} {c : BitVec 16} {l : BitVec 32} {body : Bytes}

/-- A frame of kind DATA with a complete header is the RX of its bytes (43_entity R222, R223). -/
theorem exec_pktData_eq_rx : exec (.pktData n c l body) s = exec (.rx (packetBytes .data n c l body)) s := by
  simp only [exec, execPktData, execRx, rxDispatch_data]

theorem exec_pktData_of_corrupt (hlen : body.length ≤ s.cfg.maxPayload)
    (h : ¬ (verify (packetBytes .data n c l body) = true ∧ l.toNat ≤ body.length)) :
    exec (.pktData n c l body) s =
      .next ((s.beginStep.onDataReceived none).endStep (.rx (packetBytes .data n c l body))) := by
  rw [exec_pktData_eq_rx, exec_rx_of_admitted (State.frameAdmitted_packetBytes .data hlen), rxDispatch_data, if_neg h]

theorem exec_pktData_of_good (hlen : body.length ≤ s.cfg.maxPayload)
    (hv : verify (packetBytes .data n c l body) = true) (hl : l.toNat ≤ body.length) :
    exec (.pktData n c l body) s =
      .next ((s.beginStep.onDataReceived (some (n.toInt, body.take l.toNat))).endStep
        (.rx (packetBytes .data n c l body))) := by
  rw [exec_pktData_eq_rx, exec_rx_of_admitted (State.frameAdmitted_packetBytes .data hlen), rxDispatch_data,
    if_pos ⟨hv, hl⟩]

end pktData

/-- Settles O26: the accept branch, with `acceptData_eq` for all that it does. -/
theorem dataAcceptedDeliversAndAcks : Obligations.DataAcceptedDeliversAndAcks := by
  intro s n c l body hlen hv hl hn
  rw [exec_pktData_of_good hlen hv hl, s.beginStep.onDataReceived_accept _ hn, State.acceptData_eq]
  rfl

/-- Settles O27: both reject branches give the step its class and send the last ACK. -/
theorem dataRejectedResendsTheLastAck : Obligations.DataRejectedResendsTheLastAck := by
  refine fun s n c l body hlen => ⟨fun h => ?_, fun hv hl hn => ?_⟩
  · rw [← Bool.not_eq_true, ← Nat.not_le, ← not_and_or] at h
    rw [exec_pktData_of_corrupt hlen h, s.beginStep.onDataReceived_corrupt]
    rfl
  · rw [exec_pktData_of_good hlen hv hl, s.beginStep.onDataReceived_unexpected _ hn]
    rfl

/-- A frame with the tag of DATA ends in one of the three classes of DATA (60_exceptions R262). -/
theorem rxClassOf_data (s : State) {B : Bytes} (htag : frameTag B = some 128) :
    rxClassOf s B = .dataCorrupt ∨ rxClassOf s B = .dataUnexpected ∨ rxClassOf s B = .dataAccept := by
  simp only [rxClassOf, htag]
  by_cases hc : corrupt B = true
  · exact .inl (by simp [hc])
  · by_cases hn : s32 (u32 B 2) = (s.expectedSeqNum : Int)
    · exact .inr (.inr (by simp [hc, hn]))
    · exact .inr (.inl (by simp [hc, hn]))

/-- A received frame with the tag of DATA that does not carry the expected number in good order is answered by the last ACK
alone, and the receiver's registers stay (R203, R204). -/
theorem RxEffect.resends_lastAck {s t : State} {B : Bytes} (h : RxEffect s B t) (htag : frameTag B = some 128)
    (hrejected : ∀ p, decodeFrame B = .packet p → verify B = true → p.number ≠ (s.expectedSeqNum : Int)) :
    t.out.actions = rejectActions s ∧ t.expectedSeqNum = s.expectedSeqNum ∧ t.lastAckNum = s.lastAckNum := by
  have hdata := rxClassOf_data s htag
  cases h with
  | absorbed k hk hc =>
    subst hc
    rcases hdata with hd | hd | hd <;> simp [hd] at hk
  | acked m _ _ hc => simp [hc] at hdata
  | rejected => exact ⟨rfl, rfl, rfl⟩
  | accepted p hd hv _ hn => exact absurd hn (hrejected p hd hv)

/-- Settles O28: the number of a duplicate is not the expected one. -/
theorem duplicateIsNeverDeliveredAgain : Obligations.DuplicateIsNeverDeliveredAgain := by
  intro s B p ha hd hk hn
  obtain ⟨hactions, hregisters⟩ := (rx_effect s B).resends_lastAck (by rw [frameTag_of_decode hd, hk]) (by
    intro q hq _
    cases hd.symm.trans hq
    omega)
  exact ⟨_, exec_rx_of_admitted ha, by rw [hactions]; rfl, hactions, hregisters⟩

/-- The bytes of the sentinel ACK (R205, with the two's complement of decision D5). -/
theorem encodeFrame_sentinel : encodeFrame .ack (-1) [] = [0, 0, 0xFF, 0xFF, 0xFF, 0xFF, 0, 0, 0, 0, 0, 0] := by
  decide

/-- Settles O29: the last ACK numbered -1 is the sentinel, and every rejected DATA frame is answered by the last ACK. -/
theorem sentinelAckOnTheWire : Obligations.SentinelAckOnTheWire := by
  refine fun s hlast => ⟨fun B ha htag hrejected => ⟨_, exec_rx_of_admitted ha, ?_⟩,
    fun n c l body hlen hrejected => ?_⟩
  · obtain ⟨hactions, -⟩ := (rx_effect s B).resends_lastAck htag (by
      intro p hd hv
      obtain hbad | ⟨tag, hfail⟩ | ⟨q, hq, hn⟩ := hrejected
      · simp [hbad] at hv
      · simp [hfail] at hd
      · cases hd.symm.trans hq
        exact hn)
    rw [hactions, rejectActions, hlast, encodeFrame_sentinel]
  · obtain ⟨hcorrupt, hunexpected⟩ := dataRejectedResendsTheLastAck s n c l body hlen
    rw [hlast, encodeFrame_sentinel] at hcorrupt hunexpected
    by_cases hbad : verify (packetBytes .data n c l body) = false ∨ body.length < l.toNat
    · exact ⟨_, hcorrupt hbad, rfl⟩
    · simp only [not_or, Bool.not_eq_false, Nat.not_lt] at hbad
      obtain ⟨hv, hl⟩ := hbad
      exact ⟨_, hunexpected hv hl (by simpa [hv, Nat.not_lt.2 hl] using hrejected), rfl⟩

end Sys2Proof.Machine

/-! PROOF. Which waiting stimulus a step takes (43_entity R221, R230) and which it admits (R228, R229, R246): one that is not
admitted changes nothing, and an action handed out joins the action list (R240 to R244). -/

namespace Sys2Proof.Machine

section admission
variable (s : State)

theorem State.pendingBelowDepth_iff :
    s.pendingBelowDepth = true ↔ ∀ depth, s.cfg.pendingDepth = some depth → s.pendingQueue.length < depth := by
  unfold pendingBelowDepth
  cases s.cfg.pendingDepth <;> simp

theorem State.submitAdmitted_iff (p : Bytes) :
    s.submitAdmitted p = true ↔
      p.length ≤ s.cfg.maxPayload ∧
        (s.hasRoom = true ∨ ∀ depth, s.cfg.pendingDepth = some depth → s.pendingQueue.length < depth) := by
  rw [submitAdmitted, Bool.and_eq_true, Bool.or_eq_true, decide_eq_true_eq, pendingBelowDepth_iff]

theorem State.frameAdmitted_iff (B : Bytes) : s.frameAdmitted B = true ↔ B.length ≤ 12 + s.cfg.maxPayload :=
  decide_eq_true_iff

/-- A frame with a complete header is admitted by the length of its body (R246). -/
theorem State.frameAdmitted_packetBytes_iff (k : Kind) (n : BitVec 32) (c : BitVec 16) (l : BitVec 32) (body : Bytes) :
    s.frameAdmitted (packetBytes k n c l body) = true ↔ body.length ≤ s.cfg.maxPayload := by
  rw [frameAdmitted_iff, packetBytes_length, Nat.add_le_add_iff_left]

/-- Only a SUBMIT and a received frame can be held back (R229). -/
theorem State.admits_of_other {i : Instr} (hrx : isReceiveOp i = false) (hsubmit : ∀ p, i ≠ .submit p) :
    s.admits i = true := by
  cases i with
  | submit p => exact absurd rfl (hsubmit p)
  | rx => cases hrx
  | pktAck => cases hrx
  | pktData => cases hrx
  | _ => rfl

end admission

/-- The operation taken is offered by a waiting stimulus before which none offers one. -/
theorem State.takeNext_eq_some_iff {s : State} {q left : List Waiting} {i : Instr} :
    s.takeNext q = some (i, left) ↔
      ∃ before w after, q = before ++ w :: after ∧ left = before ++ after ∧ s.offers w = some i ∧
        ∀ x ∈ before, s.offers x = none := by
  induction q generalizing left with
  | nil => simp [takeNext]
  | cons v rest ih =>
    cases hv : s.offers v with
    | some j =>
      rw [takeNext_of_offers rest hv]
      constructor
      · rintro ⟨⟩
        exact ⟨[], v, rest, rfl, rfl, hv, by simp⟩
      · rintro ⟨before, w, after, hq, rfl, hw, hbefore⟩
        cases before with
        | nil => cases hq; cases hv.symm.trans hw; rfl
        | cons x before => cases hq; simp [hv] at hbefore
    | none =>
      rw [takeNext_of_none rest hv]
      constructor
      · intro h
        obtain ⟨⟨j, left'⟩, htake, heq⟩ := Option.map_eq_some_iff.1 h
        cases heq
        obtain ⟨before, w, after, rfl, rfl, hw, hbefore⟩ := ih.1 htake
        exact ⟨v :: before, w, after, rfl, rfl, hw, List.forall_mem_cons.2 ⟨hv, hbefore⟩⟩
      · rintro ⟨before, w, after, hq, rfl, hw, hbefore⟩
        cases before with
        | nil => cases hq; simp [hv] at hw
        | cons x before =>
          cases hq
          rw [ih.2 ⟨before, w, after, rfl, rfl, hw, (List.forall_mem_cons.1 hbefore).2⟩]
          rfl

theorem State.takeNext_eq_none {s : State} {q : List Waiting} (h : ∀ w ∈ q, s.offers w = none) :
    s.takeNext q = none := by
  rw [Option.eq_none_iff_forall_ne_some]
  rintro ⟨i, left⟩ htake
  obtain ⟨before, w, after, rfl, -, hw, -⟩ := takeNext_eq_some_iff.1 htake
  simp [h w (by simp)] at hw

/-- Settles O3: which stimulus is taken, by induction on the waiting ones; which is admitted, operation by operation. -/
theorem takesTheFirstReadyStimulus : Obligations.TakesTheFirstReadyStimulus := by
  refine ⟨fun s w i => State.offers_of_ok, fun s w e => State.offers_of_error, fun s q i left => ?_,
    State.submitAdmitted_iff, State.frameAdmitted_iff, fun s n c l body => ⟨?_, ?_⟩, fun s i => s.admits_of_other⟩
  · simp only [State.takeNext_eq_some_iff, State.offers_eq_some_iff, State.offers_eq_none_iff, and_assoc]
  · exact s.frameAdmitted_packetBytes_iff .ack n c l body
  · exact s.frameAdmitted_packetBytes_iff .data n c l body

theorem step_of_takeNext {s : State} {left : List Waiting} {i : Instr} (h : s.takeNext s.inbox = some (i, left)) :
    step s = exec i { s with inbox := left } := by
  unfold step
  rw [h]

theorem step_of_no_offer {s : State} (h : ∀ w ∈ s.inbox, s.offers w = none) : step s = .next s := by
  unfold step
  rw [State.takeNext_eq_none h]

/-- Settles O2: a record that is no operation offers none, so the step looks past it. -/
theorem stepRunsTheDecodedOperation : Obligations.StepRunsTheDecodedOperation := by
  refine ⟨fun s left i => step_of_takeNext, fun s w rest i hbox hw ha => ?_, fun s v w rest e i hbox hv hw ha => ?_,
    fun s h => ?_⟩
  · exact step_of_offers hbox (State.offers_eq_some_iff.2 ⟨hw, ha⟩)
  · refine step_of_takeNext ?_
    rw [hbox, State.takeNext_of_none _ (State.offers_of_error hv),
      State.takeNext_of_offers _ (State.offers_eq_some_iff.2 ⟨hw, ha⟩)]
    rfl
  · exact step_of_no_offer fun w hw => State.offers_eq_none_iff.2 (h w hw)

section
variable {s : State} {n : BitVec 32} {c : BitVec 16} {l : BitVec 32} {body : Bytes}

/-- A frame of kind ACK with a complete header is the RX of its bytes (R222, R223). -/
theorem exec_pktAck_eq_rx : exec (.pktAck n c l body) s = exec (.rx (packetBytes .ack n c l body)) s := by
  simp only [exec, execPktAck, execRx, rxDispatch_ack]

theorem exec_submit_of_not_admitted {p : Bytes} (h : s.submitAdmitted p = false) : exec (.submit p) s = .next s :=
  if_neg (Bool.eq_false_iff.1 h)

theorem exec_rx_of_not_admitted {B : Bytes} (h : ¬ s.frameAdmitted B = true) : exec (.rx B) s = .next s := if_neg h

end

/-- Settles O30: in both the controller makes the same of the frame's bytes. -/
theorem rxRoutesByTag : Obligations.RxRoutesByTag := fun _ _ _ _ _ => ⟨exec_pktAck_eq_rx.symm, exec_pktData_eq_rx.symm⟩

/-- Settles O20: a packet that is too long is an RX that is too long. -/
theorem stimulusNotAdmittedChangesNothing : Obligations.StimulusNotAdmittedChangesNothing := by
  refine fun s => ⟨s.submitAdmitted_iff, fun p => exec_submit_of_not_admitted, fun B hB => ?_,
    fun n c l body hbody => ?_⟩
  · exact exec_rx_of_not_admitted (by rw [s.frameAdmitted_iff]; omega)
  · have hlong : ∀ k, ¬ s.frameAdmitted (packetBytes k n c l body) = true := fun k => by
      rw [s.frameAdmitted_packetBytes_iff]; omega
    rw [exec_pktAck_eq_rx, exec_pktData_eq_rx]
    exact ⟨exec_rx_of_not_admitted (hlong .ack), exec_rx_of_not_admitted (hlong .data)⟩

/-- Settles O17: each of the four is `emit` of its action. -/
theorem actionsJoinTheList : Obligations.ActionsJoinTheList := fun _ =>
  ⟨fun _ _ _ => rfl, fun _ _ => rfl, fun _ _ => rfl, fun _ => rfl⟩

end Sys2Proof.Machine

/-! PROOF. The class that an RX ends in and the effects of each class (43_entity R222 to R227, 60_exceptions R262, R263). -/

namespace Sys2Proof.Machine

/-- The classes whose frame is ignored: nothing is changed and nothing is answered. -/
def ignoredClasses : List RxClass := [.dropUnreadable, .dropUnknownKind, .ackCorrupt, .ackStale, .ackAhead]

/-- The classes whose frame is answered by the last ACK alone. -/
def rejectedClasses : List RxClass := [.dataCorrupt, .dataUnexpected]

/-- The state after an RX of `B` that ends in class `k` with the actions `as` and leaves every register. -/
def afterRx (s : State) (B : Bytes) (k : RxClass) (as : List Action) : State :=
  { s with out := ⟨as, some k, none⟩, trace := s.trace ++ [⟨.rx B, as⟩] }

section
variable {s : State} {B : Bytes}

theorem frameTag_of_two_bytes (h : 2 ≤ B.length) : frameTag B = some (u16 B 0) := if_neg (by omega)

theorem corrupt_of_fail {t : Option Nat} (h : decodeFrame B = .fail t) : corrupt B = true := by
  unfold corrupt
  rw [h]

theorem rxClassOf_of_no_tag (h : B.length < 2) : rxClassOf s B = .dropUnreadable := by
  simp [rxClassOf, frameTag, h]

theorem rxClassOf_of_unknown_tag (h : 2 ≤ B.length) (h0 : u16 B 0 ≠ 0) (h1 : u16 B 0 ≠ 128) :
    rxClassOf s B = .dropUnknownKind := by
  simp [rxClassOf, frameTag_of_two_bytes h, h0, h1]

theorem rxClassOf_of_corrupt_ack (h : 2 ≤ B.length) (h0 : u16 B 0 = 0) (hc : corrupt B = true) :
    rxClassOf s B = .ackCorrupt := by
  simp [rxClassOf, frameTag_of_two_bytes h, h0, hc]

theorem rxClassOf_of_corrupt_data (h : 2 ≤ B.length) (h1 : u16 B 0 = 128) (hc : corrupt B = true) :
    rxClassOf s B = .dataCorrupt := by
  simp [rxClassOf, frameTag_of_two_bytes h, h1, hc]

end

section RxEffect
variable {s t : State} {B : Bytes} (h : RxEffect s B t)
include h

theorem RxEffect.eq_of_ignored (hi : rxClassOf s B ∈ ignoredClasses) : t = afterRx s B (rxClassOf s B) [] := by
  cases h with
  | absorbed k _ hc => rw [hc]; rfl
  | acked m _ _ hc => rw [hc] at hi; exact absurd hi (by decide)
  | rejected k hk hc =>
    rw [hc] at hi
    rcases hk with rfl | rfl <;> exact absurd hi (by decide)
  | accepted p _ _ _ _ hc => rw [hc] at hi; exact absurd hi (by decide)

theorem RxEffect.eq_of_rejected (hr : rxClassOf s B ∈ rejectedClasses) :
    t = afterRx s B (rxClassOf s B) (rejectActions s) := by
  cases h with
  | absorbed k hk hc =>
    rw [hc] at hr
    rcases hk with rfl | rfl | rfl | rfl | rfl <;> exact absurd hr (by decide)
  | acked m _ _ hc => rw [hc] at hr; exact absurd hr (by decide)
  | rejected k _ hc => rw [hc]; rfl
  | accepted p _ _ _ _ hc => rw [hc] at hr; exact absurd hr (by decide)

theorem RxEffect.trace_eq : t.trace = s.trace ++ [⟨.rx B, t.out.actions⟩] := by cases h <;> rfl

theorem RxEffect.inbox_eq : t.inbox = s.inbox := by cases h <;> rfl

/-- Only an accepted ACK touches the sender's registers and stores (41_sender R170). -/
theorem RxEffect.keeps_sender (hc : rxClassOf s B ≠ .ackAccept) : t = withSenderOf t s := by
  cases h with
  | absorbed => rfl
  | acked m _ _ hacc => exact absurd hacc hc
  | rejected => rfl
  | accepted => rfl

/-- Only an accepted DATA frame touches the receiver's registers (42_receiver R203). -/
theorem RxEffect.keeps_receiver (hc : rxClassOf s B ≠ .dataAccept) :
    t.expectedSeqNum = s.expectedSeqNum ∧ t.lastAckNum = s.lastAckNum := by
  cases h with
  | absorbed => exact ⟨rfl, rfl⟩
  | acked => exact ⟨rfl, rfl⟩
  | rejected => exact ⟨rfl, rfl⟩
  | accepted _ _ _ _ _ hacc => exact absurd hacc hc

/-- An accepted DATA frame delivers a payload and sends the new ACK (42_receiver R202). -/
theorem RxEffect.actions_of_data_accept (hc : rxClassOf s B = .dataAccept) :
    ∃ p : Bytes, t.out.actions = [.deliver s.cfg.entityId p,
      .transmit s.cfg.entityId true (encodeFrame .ack t.lastAckNum [])] := by
  cases h with
  | absorbed k hk hcls => simp [← hcls, hc] at hk
  | acked m _ _ hcls => simp [hc] at hcls
  | rejected k hk hcls => simp [← hcls, hc] at hk
  | accepted p => exact ⟨p.payload, rfl⟩

theorem RxEffect.eq_afterAck (hc : rxClassOf s B = .ackAccept) : ∃ m, t = afterAck s B m := by
  cases h with
  | absorbed k hk hcls => simp [← hcls, hc] at hk
  | acked m => exact ⟨m, rfl⟩
  | rejected k hk hcls => simp [← hcls, hc] at hk
  | accepted _ _ _ _ _ hcls => simp [hc] at hcls

end RxEffect

theorem stop_mem_timerActions {as : List Action} {e : EntityId} (h : .stopTimer e ∈ as) : .stop ∈ timerActions as :=
  List.mem_filterMap.2 ⟨_, h, rfl⟩

/-- With a timer outstanding an accepted ACK stops it first (41_sender R165, R173); what follows holds no further STOP and
only what the sender emits. -/
theorem afterAck_actions_of_running {s : State} (hr : s.timerRunning = true) (B : Bytes) (m : Nat) :
    ∃ rest, (afterAck s B m).out.actions = .stopTimer s.cfg.entityId :: rest ∧ .stopTimer s.cfg.entityId ∉ rest ∧
      deliveredPayloads rest = [] ∧ ackNumbersOf rest = [] := by
  obtain ⟨rest, hrest⟩ : ∃ rest, (afterAck s B m).out.actions = .stopTimer s.cfg.entityId :: rest := by
    simp [afterAck, hr]
  have htimer := timerActions_afterAck s B m
  have hdelivered := deliveredPayloads_afterAck s B m
  have hacks := ackNumbersOf_afterAck s B m
  rw [hrest] at htimer hdelivered hacks
  refine ⟨rest, hrest, fun hmem => ?_, hdelivered, hacks⟩
  have hafter : timerActions rest = if (afterAck s B m).timerRunning then [.start] else [] := by simpa [hr] using htimer
  have hstop := stop_mem_timerActions hmem
  rw [hafter] at hstop
  split at hstop <;> simp at hstop

section exec
variable {s : State} {B : Bytes} {k : RxClass} (ha : s.frameAdmitted B = true)
include ha

theorem exec_rx_of_ignored (hk : k ∈ ignoredClasses) (hc : rxClassOf s B = k) :
    exec (.rx B) s = .next (afterRx s B k []) := by
  subst hc
  rw [exec_rx_of_admitted ha, (rx_effect s B).eq_of_ignored hk]

theorem exec_rx_of_rejected (hk : k ∈ rejectedClasses) (hc : rxClassOf s B = k) :
    exec (.rx B) s = .next (afterRx s B k (rejectActions s)) := by
  subst hc
  rw [exec_rx_of_admitted ha, (rx_effect s B).eq_of_rejected hk]

end exec

/-- Settles O31: the class of a malformed frame is that of the tag that can be read, and it is ignored or rejected. -/
theorem malformedFramesAreAbsorbed : Obligations.MalformedFramesAreAbsorbed := by
  intro s B ha
  refine ⟨fun h => ?_, fun h h0 h1 => ?_, fun h h0 ⟨t, ht⟩ => ?_, fun h h1 ⟨t, ht⟩ => ?_⟩
  · exact exec_rx_of_ignored ha (by decide) (rxClassOf_of_no_tag h)
  · exact exec_rx_of_ignored ha (by decide) (rxClassOf_of_unknown_tag h h0 h1)
  · exact exec_rx_of_ignored ha (by decide) (rxClassOf_of_corrupt_ack h h0 (corrupt_of_fail ht))
  · exact exec_rx_of_rejected ha (by decide) (rxClassOf_of_corrupt_data h h1 (corrupt_of_fail ht))

/-- Settles O32, from what each class lets an RX do. -/
theorem everyRxEndsInItsClass : Obligations.EveryRxEndsInItsClass := by
  intro s B ha
  refine ⟨_, exec_rx_of_admitted ha, ?_⟩
  have h := rx_effect s B
  generalize (s.beginStep.rxDispatch B).endStep (.rx B) = t at h ⊢
  refine ⟨h.rxClass_eq, h.trace_eq, h.inbox_eq, h.cfg_eq, fun hc => ?_, h.keeps_receiver, fun hc => ?_, fun hc => ?_,
    h.actions_of_data_accept, fun hc hr => ?_⟩
  · rw [h.keeps_sender hc]
    exact ⟨rfl, rfl, rfl, rfl, rfl⟩
  · rw [h.eq_of_ignored hc]
    rfl
  · rw [h.eq_of_rejected hc]
    rfl
  · obtain ⟨m, rfl⟩ := h.eq_afterAck hc
    exact afterAck_actions_of_running hr B m

end Sys2Proof.Machine

/-! PROOF. What the entity emits in a step: its frames verify (43_entity R241), and a step emits at most `2 + window_size`
actions (R240, 41_sender R175). -/

namespace Sys2Proof.Machine

@[simp] theorem encodeFrame_length (k : Kind) (n : Int) (p : Bytes) : (encodeFrame k n p).length = 12 + p.length :=
  layout_length _ _ _ _ _

/-- The tag of a frame from `encode` is that of its kind (30_encoding R92). -/
theorem frameTag_encodeFrame (k : Kind) (n : Int) (p : Bytes) : frameTag (encodeFrame k n p) = some (kindTag k) := by
  rw [frameTag_of_two_bytes (by rw [encodeFrame_length]; omega), encodeFrame, layout_u16_kind _ _ _ _ (kindTag_lt k)]

theorem isAckFrame_encodeFrame (k : Kind) (n : Int) (p : Bytes) : isAckFrame (encodeFrame k n p) = decide (k = .ack) := by
  rw [isAckFrame, frameTag_encodeFrame]
  cases k <;> rfl

/-- Settles O42: both shapes of frame come from `encode`, with a number in range and a payload of legal length. -/
theorem ownFramesVerify : Obligations.OwnFramesVerify := by
  intro c e isAck f hf
  cases isAck with
  | true =>
    obtain ⟨-, n, h0, h1, rfl⟩ := hf
    simp only [seqMax] at h1
    exact ⟨verify_encodeFrame .ack (inNumberRange_of (by omega) (by omega)) (by decide),
      isAckFrame_encodeFrame .ack n [], by simp⟩
  | false =>
    obtain ⟨-, n, p, hn, hp, rfl⟩ := hf
    simp only [seqMax] at hn
    have hmax := c.maxPayload_le
    exact ⟨verify_encodeFrame .data (inNumberRange_of (by omega) (by omega)) (by omega),
      isAckFrame_encodeFrame .data n p, by simpa using hp⟩

section lengths
variable (s : State)

theorem startActions_length_le : (startActions s).length ≤ 2 := by
  unfold startActions
  split <;> simp

theorem sendActions_length_le (p : Bytes) : (sendActions s p).length ≤ 3 := by
  have hstart := startActions_length_le s
  unfold sendActions
  split <;> simp only [List.length_cons, List.length_nil] <;> omega

theorem timeoutActions_length (f : Nat → Bytes) :
    (timeoutActions s f).length = 1 + (s.nextSeqNum - s.windowBase) := by
  simp [timeoutActions, Nat.add_comm]

/-- The drain transmits each of its frames, with one START more if the ACK had emptied the window (41_sender R174). -/
theorem drainActions_length_le (emptied : Bool) (frames : List (Nat × Bytes)) :
    (drainActions s emptied frames).length ≤ frames.length + if emptied then 1 else 0 := by
  cases frames with
  | nil => exact Nat.zero_le _
  | cons f rest => cases emptied <;> simp [drainActions]

/-- Beside the drained frames, which fit the window, an accepted ACK emits at most a STOP and a START: the START stands
before the drain if the ACK leaves packets unacknowledged, and inside it otherwise. -/
theorem Inv.afterAck_actions_length_le {s : State} (h : Inv s) (B : Bytes) {m : Nat} (h1 : s.windowBase ≤ m)
    (h2 : m < s.nextSeqNum) : (afterAck s B m).out.actions.length ≤ 2 + s.cfg.windowSize := by
  have hdrained : s.nextSeqNum + (drained s m).length ≤ m + 1 + s.cfg.windowSize := (h.acked B h1 h2).next_le_window
  have hdrain := drainActions_length_le s (decide (m + 1 = s.nextSeqNum)) (numberedFrames s.nextSeqNum (drained s m))
  rw [show (numberedFrames s.nextSeqNum (drained s m)).length = (drained s m).length from List.length_mapIdx] at hdrain
  have hstop : (if s.timerRunning then [Action.stopTimer s.cfg.entityId] else []).length ≤ 1 := by split <;> simp
  simp only [afterAck, List.length_append]
  by_cases he : m + 1 = s.nextSeqNum
  · simp only [he, decide_true, if_true, List.length_nil] at hdrain ⊢
    omega
  · simp only [he, decide_false, Bool.false_eq_true, if_false, List.length_singleton] at hdrain ⊢
    omega

end lengths

theorem RxEffect.actions_length_le {s t : State} {B : Bytes} (h : RxEffect s B t) (hi : Inv s) :
    t.out.actions.length ≤ 2 + s.cfg.windowSize := by
  cases h with
  | absorbed => exact Nat.zero_le _
  | acked m h1 h2 => exact hi.afterAck_actions_length_le B h1 h2
  | rejected => exact (by decide : 1 ≤ 2).trans (Nat.le_add_right _ _)
  | accepted => exact Nat.le_add_right 2 _

theorem exec_submit_actions_length_le {s t : State} {p : Bytes} (ha : s.submitAdmitted p = true)
    (h : exec (.submit p) s = .next t) : t.out.actions.length ≤ 2 + s.cfg.windowSize := by
  cases hr : s.hasRoom with
  | true =>
    cases (exec_submit_of_room ha hr).symm.trans h
    have hpos := s.cfg.windowSize_pos
    exact (sendActions_length_le s p).trans (by omega)
  | false =>
    cases (exec_submit_of_no_room ha hr).symm.trans h
    exact Nat.zero_le _

section bounds
variable {s t : State} (hi : Inv s)
include hi

theorem Inv.exec_rx_actions_length_le {B : Bytes} (ha : s.frameAdmitted B = true) (h : exec (.rx B) s = .next t) :
    t.out.actions.length ≤ 2 + s.cfg.windowSize := by
  cases (exec_rx_of_admitted ha).symm.trans h
  exact (rx_effect s B).actions_length_le hi

theorem Inv.exec_timeout_actions_length_le (h : exec .timeout s = .next t) :
    t.out.actions.length ≤ 2 + s.cfg.windowSize := by
  cases (timeoutResendsTheWindow s fun n => hi.read_isSome).symm.trans h
  have hwindow := hi.next_le_window
  exact (timeoutActions_length s fun n => (s.unackedBuffer.read n).getD []).trans_le (by omega)

end bounds

/-- Settles O44, operation by operation; a packet is the RX of its bytes. -/
theorem actionsPerStepAreBounded : Obligations.ActionsPerStepAreBounded := by
  intro s t i hi hop ha h
  cases i with
  | submit p => exact exec_submit_actions_length_le ha h
  | rx B => exact hi.exec_rx_actions_length_le ha h
  | timeout => exact hi.exec_timeout_actions_length_le h
  | pktAck n c l body => exact hi.exec_rx_actions_length_le ha (exec_pktAck_eq_rx.symm.trans h)
  | pktData n c l body => exact hi.exec_rx_actions_length_le ha (exec_pktData_eq_rx.symm.trans h)
  | _ => cases hop

end Sys2Proof.Machine

/-! PROOF. Nothing is refused, and what the invariants exclude is the one fault there is: a TIMEOUT that reads a key which
`UB` does not hold (60_exceptions R260, 20_memory R66). -/

namespace Sys2Proof.Machine

/-- An operation on `s` ended without a refusal; if it faulted, then on a key of the window that `UB` does not hold. -/
def EndsOrMissesKey (s : State) (o : Host.Outcome State Fault Refusal) : Prop :=
  (∃ t, o = .next t) ∨
    ∃ n, s.windowBase ≤ n ∧ n < s.nextSeqNum ∧ s.unackedBuffer.read n = none ∧ o = .fault (.absentKey n)

section
variable {s : State} {o : Host.Outcome State Fault Refusal}

theorem EndsOrMissesKey.ne_refused (h : EndsOrMissesKey s o) (r : Refusal) : o ≠ .refused r := by
  obtain ⟨t, rfl⟩ | ⟨n, -, -, -, rfl⟩ := h <;> exact nofun

/-- The window invariant leaves no key to miss (10_state R24). -/
theorem Inv.completes (hi : Inv s) (h : EndsOrMissesKey s o) : ∃ t, o = .next t := by
  obtain hnext | ⟨n, hbase, hlt, hnone, -⟩ := h
  · exact hnext
  · have hsome := hi.read_isSome hbase hlt
    simp [hnone] at hsome

end

theorem exec_submit_completes (s : State) (p : Bytes) : ∃ t, exec (.submit p) s = .next t := by
  cases ha : s.submitAdmitted p with
  | false => exact ⟨s, exec_submit_of_not_admitted ha⟩
  | true =>
    cases hr : s.hasRoom with
    | false => exact ⟨_, exec_submit_of_no_room ha hr⟩
    | true => exact ⟨_, exec_submit_of_room ha hr⟩

theorem exec_rx_completes (s : State) (B : Bytes) : ∃ t, exec (.rx B) s = .next t := by
  by_cases ha : s.frameAdmitted B = true
  · exact ⟨_, exec_rx_of_admitted ha⟩
  · exact ⟨s, exec_rx_of_not_admitted ha⟩

/-- Of all operations only TIMEOUT can fault. -/
theorem exec_endsOrMissesKey (s : State) (i : Instr) : EndsOrMissesKey s (exec i s) := by
  cases i with
  | timeout => exact (timeout_effect s).imp_left fun ⟨t, ht, _⟩ => ⟨t, ht⟩
  | submit p => exact .inl (exec_submit_completes s p)
  | rx B => exact .inl (exec_rx_completes s B)
  | pktAck n c l body => rw [exec_pktAck_eq_rx]; exact .inl (exec_rx_completes s _)
  | pktData n c l body => rw [exec_pktData_eq_rx]; exact .inl (exec_rx_completes s _)
  | _ => exact .inl ⟨_, rfl⟩

/-- A step is at most one operation, and the window that it reads is that of `s`, whatever goes on waiting. -/
theorem step_endsOrMissesKey (s : State) : EndsOrMissesKey s (step s) := by
  unfold step
  split
  · exact .inl ⟨s, rfl⟩
  · exact exec_endsOrMissesKey { s with inbox := _ } _

/-- Settles O35: the one fault there is needs a key missing from the window. -/
theorem nothingFaults : Obligations.NothingFaults :=
  ⟨fun s hi => ⟨fun i => hi.completes (exec_endsOrMissesKey s i), hi.completes (step_endsOrMissesKey s)⟩,
    fun s r => ⟨fun i => (exec_endsOrMissesKey s i).ne_refused r, (step_endsOrMissesKey s).ne_refused r⟩⟩

end Sys2Proof.Machine

/-! PROOF. The reference mux (60_exceptions R277) is a stable sort of the waiting stimuli by rank. -/

namespace Sys2Proof.Machine

section mux
variable (s : State)

/-- The waiting stimuli of rank `r`, in the order in which they came. -/
def State.waitingOfRank (r : Nat) : List Waiting := s.inbox.filter (·.rank == r)

theorem State.rank_of_mem_waitingOfRank {r : Nat} {w : Waiting} (h : w ∈ s.waitingOfRank r) : w.rank = r :=
  beq_iff_eq.1 (List.mem_filter.1 h).2

theorem State.filter_waitingOfRank (k r : Nat) :
    (s.waitingOfRank r).filter (·.rank == k) = if r = k then s.waitingOfRank k else [] := by
  split
  · subst r
    exact List.filter_eq_self.2 fun w hw => beq_iff_eq.2 (s.rank_of_mem_waitingOfRank hw)
  · rename_i hne
    refine List.filter_eq_nil_iff.2 fun w hw hk => hne ?_
    exact (s.rank_of_mem_waitingOfRank hw).symm.trans (beq_iff_eq.1 hk)

theorem State.arbitrateReference_inbox : s.arbitrateReference.inbox = (List.range 4).flatMap s.waitingOfRank := by
  have hlast : (fun w : Waiting => decide (3 ≤ w.rank)) = (·.rank == 3) := by
    funext w
    have := w.rank_le
    rw [Bool.eq_iff_iff, decide_eq_true_iff, beq_iff_eq]
    omega
  simp [arbitrateReference, hlast, waitingOfRank, List.range_succ]

theorem State.arbitrateReference_sorted : s.arbitrateReference.inbox.Pairwise fun v w => v.rank ≤ w.rank := by
  rw [arbitrateReference_inbox, List.pairwise_flatMap]
  constructor
  · intro r _
    refine List.pairwise_of_forall_mem_list fun v hv w hw => ?_
    rw [s.rank_of_mem_waitingOfRank hv, s.rank_of_mem_waitingOfRank hw]
  · refine List.pairwise_lt_range.imp fun hlt v hv w hw => ?_
    rw [s.rank_of_mem_waitingOfRank hv, s.rank_of_mem_waitingOfRank hw]
    exact hlt.le

/-- Within a rank the order of arrival stays (log 17). -/
theorem State.arbitrateReference_stable {k : Nat} (hk : k ≤ 3) :
    s.arbitrateReference.inbox.filter (·.rank == k) = s.inbox.filter (·.rank == k) := by
  rw [arbitrateReference_inbox, List.filter_flatMap]
  simp only [filter_waitingOfRank]
  change _ = s.waitingOfRank k
  obtain rfl | rfl | rfl | rfl : k = 0 ∨ k = 1 ∨ k = 2 ∨ k = 3 := by omega
  all_goals simp [List.range_succ]

/-- A stimulus is counted within its rank. -/
theorem State.arbitrateReference_perm : s.arbitrateReference.inbox.Perm s.inbox := by
  refine List.perm_iff_count.2 fun w => ?_
  have hcount : ∀ l : List Waiting, l.count w = (l.filter (·.rank == w.rank)).count w := fun l =>
    (List.count_filter (p := fun v : Waiting => v.rank == w.rank) (beq_self_eq_true _)).symm
  rw [hcount, s.arbitrateReference_stable w.rank_le, ← hcount]

theorem State.arbitrateReference_filter {kind : Waiting → Bool} {k : Nat} (hk : k ≤ 3)
    (hkind : ∀ w, kind w = true → w.rank = k) : s.arbitrateReference.inbox.filter kind = s.inbox.filter kind := by
  have hsplit : ∀ l : List Waiting, l.filter kind = (l.filter (·.rank == k)).filter kind := fun l => by
    rw [List.filter_filter]
    refine List.filter_congr fun w _ => ?_
    cases hw : kind w with
    | false => rfl
    | true => simp [hkind w hw]
  rw [hsplit, s.arbitrateReference_stable hk, ← hsplit]

end mux

section rank
variable {w : Waiting} {i : Instr} (h : decode w.record = .ok i)
include h

theorem rank_of_receive (hi : isReceiveOp i = true) : w.rank = 0 := by
  obtain ⟨-, hr⟩ | ⟨rfl, -⟩ | ⟨⟨p, rfl⟩, -⟩ | ⟨rfl, -⟩ := rank_of_decode h
  · exact hr
  all_goals cases hi

theorem rank_of_timeout (hi : i = .timeout) : w.rank = 1 := by
  obtain ⟨hrx, -⟩ | ⟨-, hr⟩ | ⟨⟨p, rfl⟩, -⟩ | ⟨rfl, -⟩ := rank_of_decode h
  · rw [hi] at hrx
    cases hrx
  · exact hr
  all_goals cases hi

theorem rank_of_submit (hi : ∃ p, i = .submit p) : w.rank = 2 := by
  obtain ⟨p, rfl⟩ := hi
  obtain ⟨hrx, -⟩ | ⟨hi, -⟩ | ⟨-, hr⟩ | ⟨hi, -⟩ := rank_of_decode h
  · cases hrx
  · cases hi
  · exact hr
  · cases hi

end rank

/-- Settles O50: the operation of a record fixes its rank, and the mux sorts by rank. -/
theorem referenceMuxIsOneOrder : Obligations.ReferenceMuxIsOneOrder := by
  refine fun s => ⟨s.arbitrateReference_perm, s.arbitrateReference_sorted.imp ?_, fun kind hkind => ?_⟩
  · intro v w hle i j hv hw
    have hnotRx : 0 < v.rank → isReceiveOp j = false := fun hpos => Bool.eq_false_iff.2 fun hj => by
      have := rank_of_receive hw hj
      omega
    constructor
    · intro hi
      have hv2 := rank_of_submit hv hi
      refine ⟨fun hj => ?_, hnotRx (by omega)⟩
      have := rank_of_timeout hw hj
      omega
    · intro hi
      have hv1 := rank_of_timeout hv hi
      exact hnotRx (by omega)
  · obtain hrx | htimeout | hsubmit := hkind
    · refine s.arbitrateReference_filter (k := 0) (by omega) fun w hw => ?_
      obtain ⟨i, hd, hi⟩ := hrx w hw
      exact rank_of_receive hd hi
    · exact s.arbitrateReference_filter (k := 1) (by omega) fun w hw => rank_of_timeout (htimeout w hw) rfl
    · refine s.arbitrateReference_filter (k := 2) (by omega) fun w hw => ?_
      obtain ⟨p, hd⟩ := hsubmit w hw
      exact rank_of_submit hd ⟨p, rfl⟩

end Sys2Proof.Machine

/-! PROOF. The state after reset (70_reset_and_hazards R311, R312): the window is empty and has room because `window_size >= 1`,
so each of the three stimuli may be taken. -/

namespace Sys2Proof.Machine

section reset
variable (c : Config)

@[simp] theorem State.resetWith_out : (State.resetWith c).out = Output.empty := rfl

theorem State.resetWith_windowEmpty : (State.resetWith c).windowEmpty = true := by
  simp [State.windowEmpty_iff]

/-- The window is open because its size is at least 1 (R311). -/
theorem State.resetWith_hasRoom : (State.resetWith c).hasRoom = true := by
  have hpos := c.windowSize_pos
  simp only [State.hasRoom_iff, State.resetWith_nextSeqNum, State.resetWith_windowBase, State.resetWith_cfg]
  omega

theorem State.resetWith_admits_submit {p : Bytes} (hp : p.length ≤ c.maxPayload) :
    (State.resetWith c).admits (.submit p) = true :=
  State.submitAdmitted_of_room hp (State.resetWith_hasRoom c)

theorem State.resetWith_admits_rx {B : Bytes} (hB : B.length ≤ 12 + c.maxPayload) :
    (State.resetWith c).admits (.rx B) = true :=
  (State.frameAdmitted_iff (State.resetWith c) B).2 hB

theorem State.resetWith_admits_timeout : (State.resetWith c).admits .timeout = true :=
  State.admits_of_other (State.resetWith c) rfl nofun

end reset

/-- Settles O1: the registers by the reset table (10_state R37), the predicates and the admission by the lemmas above;
`State.reset` is the state after reset of `Config.default` (log 1). -/
theorem resetStateAsSpecified : Obligations.ResetStateAsSpecified := by
  intro c
  refine ⟨?windowBase, ?nextSeqNum, ?unackedBuffer, ?pendingQueue, ?timerRunning, ?expectedSeqNum, ?lastAckNum, ?cfg,
    State.resetWith_windowEmpty c, State.resetWith_hasRoom c, fun _ => State.resetWith_admits_submit c,
    fun _ => State.resetWith_admits_rx c, State.resetWith_admits_timeout c, ?actions, ?trace, Config.default, rfl⟩
  all_goals simp

end Sys2Proof.Machine
